-- ==== Sys2Proof/Word.lean ====
section
/-! DEFINITION. The plain values of the LSB codec core: bytes, samples, bits, bitstreams (spec/00_scope.md R5 and
section 5). Nothing in this hardware is signed. -/

namespace Sys2Proof

/-- `BYTE_W` = 8: a payload byte (R5). Bit 0 is the least significant bit. -/
abbrev Byte := BitVec 8

/-- `SAMPLE_W` = 8: one channel sample, unsigned, 0 to 255 (R5). -/
abbrev Sample := BitVec 8

/-- One element of a bitstream. The spec never adds or shifts one, so it is a truth value: `true` is 1. -/
abbrev Bit := Bool

/-- A bitstream: a finite sequence of bits, index 0 first (00_scope.md section 5). It is not a number. -/
abbrev Bits := List Bit

end Sys2Proof
end

