-- ==== Sys2Proof/Config.lean ====
section
/-! DEFINITION. The parameters of spec/00_scope.md R5 and R6, the names and sizes of the registers and buffers
(spec/10_state.md R11, R19), what a platform fixes (`FORMAT_POLICY`, `BUF_LIMIT`), and the free values that stand for
what the spec leaves open (buffer contents after a reset, R107). -/

namespace Sys2Proof

/-- `K_SET` = {1, 2}: the LSB width k, bits of the stream in one carrier (R5, R39). Other widths have no value here
(93_implementation_defined.md U14). -/
inductive LsbWidth where
  | k1
  | k2
deriving DecidableEq, Repr

/-- k as a number. -/
def LsbWidth.bits : LsbWidth → Nat
  | .k1 => 1
  | .k2 => 2

/-- `FORMAT_POLICY` (R6, D8): what a bitstream that is not byte aligned and an over-long declared length do. -/
inductive FormatPolicy where
  | strict
  | lenient
deriving DecidableEq, Repr

/-- The nine registers, numbered 0 to 8 in this order; there is no other (R11, R17). -/
inductive Reg where
  | cmd | status | plen | blen | npix | olen | oblen | req | avail
deriving DecidableEq, Repr

/-- A register's number at the host interface (R11). -/
def Reg.number : Reg → Nat
  | .cmd => 0 | .status => 1 | .plen => 2 | .blen => 3 | .npix => 4
  | .olen => 5 | .oblen => 6 | .req => 7 | .avail => 8

/-- A register's width in bits (R6, R11). -/
def Reg.width : Reg → Nat
  | .cmd => 8 | .status => 8 | .plen => 29 | .blen => 32 | .npix => 32
  | .olen => 29 | .oblen => 32 | .req => 36 | .avail => 36

/-- The registers the host may write with effect (R11: "read, write"). -/
def Reg.hostWritable : Reg → Bool
  | .cmd | .plen | .blen | .npix => true
  | .status | .olen | .oblen | .req | .avail => false

/-- The buffers whose elements are bytes or samples (R19). -/
inductive ByteBuf where
  | pin | xin | pout | xout
deriving DecidableEq, Repr

/-- The buffers whose elements are single bits (R19). -/
inductive BitBuf where
  | bin | bout
deriving DecidableEq, Repr

/-- How many elements a byte buffer has: its index range is 0 to `size - 1` (R19). -/
def ByteBuf.size : ByteBuf → Nat
  | .pin | .pout => 2 ^ 29 - 1
  | .xin | .xout => 7 * (2 ^ 32 - 1)

/-- How many elements a bit buffer has (R19). -/
def BitBuf.size : BitBuf → Nat
  | .bin => 2 ^ 32 - 1
  | .bout => 2 ^ 32 - 8

namespace Config

/-- `HDR_W`: bits of the length header (R5). -/
abbrev hdrW : Nat := 32

/-- `NCARRY`: the channels of a pixel that carry data, the first three (R5, R68). -/
abbrev ncarry : Nat := 3

/-- What a platform fixes: the format policy (R6, D8) and how many elements of each buffer it implements
(`BUF_LIMIT`, R6, R114, D16). -/
structure Platform where
  policy : FormatPolicy
  byteLimit : ByteBuf → Nat
  bitLimit : BitBuf → Nat

/-- The platform that implements every buffer over its whole index range, at a given policy. Used to state what the spec
says holds "under both policies". -/
def platformWith (p : FormatPolicy) : Platform :=
  { policy := p, byteLimit := ByteBuf.size, bitLimit := BitBuf.size }

/-- THIS HARDWARE: `STRICT` (R6, D8, log 5); every buffer implemented over its whole index range (DESIGN CHOICE: the spec
leaves `BUF_LIMIT` open, log 6). -/
def platform : Platform := platformWith .strict

/-- FREE VALUE: what element `i` of a byte buffer holds while the host and the engine have written nothing there since
reset number `epoch` (R107: "every element may hold any value"). No body: nothing can be proved of it (log 3). -/
opaque unwrittenByte (epoch : Nat) (b : ByteBuf) (i : Nat) : Byte

/-- FREE VALUE: the same for a bit buffer (R107, log 3). -/
opaque unwrittenBit (epoch : Nat) (b : BitBuf) (i : Nat) : Bit

end Config

end Sys2Proof
end

