-- ==== Sys2Proof/Syntax.lean ====
section
/-! DEFINITION. The instructions: one constructor per row of spec/opcode_table.json. -/

namespace Sys2Proof

/-- The commands an engine performs, one constructor per opcode row. `nch` is the `NCH` field, the channels per pixel
(spec/30_encoding.md R41). The Bit Codec commands ignore the K and NCH fields (R43), so they carry neither: every word of
the row is the same command (log 10). -/
inductive Instr where
  /-- `BYTES_TO_BITS` (R52) -/
  | bytesToBits
  /-- `BITS_TO_BYTES` (R53) -/
  | bitsToBytes
  /-- `EMBED.K1`: `EMBED` with k = 1 (R75) -/
  | embedK1 (nch : BitVec 3)
  /-- `EMBED.K2`: `EMBED` with k = 2 (R75) -/
  | embedK2 (nch : BitVec 3)
  /-- `EXTRACT.K1`: `EXTRACT` with k = 1 (R82) -/
  | extractK1 (nch : BitVec 3)
  /-- `EXTRACT.K2`: `EXTRACT` with k = 2 (R82) -/
  | extractK2 (nch : BitVec 3)
deriving DecidableEq, Repr

/-- `EMBED` at either width: "`EMBED.K1` and `EMBED.K2` are one command, `EMBED`, at its two values of k" (R44). -/
def Instr.embed (k : LsbWidth) (nch : BitVec 3) : Instr :=
  match k with
  | .k1 => .embedK1 nch
  | .k2 => .embedK2 nch

/-- `EXTRACT` at either width (R44). -/
def Instr.extract (k : LsbWidth) (nch : BitVec 3) : Instr :=
  match k with
  | .k1 => .extractK1 nch
  | .k2 => .extractK2 nch

end Sys2Proof
end

