-- ==== Sys2Proof/WellFormed.lean ====
section
/-! DEFINITION. Which instructions an encoding exists for: `EMBED` and `EXTRACT` need NCH from 3 to 7
(spec/30_encoding.md R41). k is 1 or 2 by the constructors (R39, R40). -/

namespace Sys2Proof

/-- The legal channel counts, 3 to 7: "the codec requires each pixel yielding at least 3 integer channel values" (R41).
The upper bound is the width of the field. -/
def nchLegal (nch : BitVec 3) : Bool := Config.ncarry ≤ nch.toNat

/-- An instruction some command word spells. -/
def Instr.wellFormed : Instr → Bool
  | .bytesToBits => true
  | .bitsToBytes => true
  | .embedK1 nch => nchLegal nch
  | .embedK2 nch => nchLegal nch
  | .extractK1 nch => nchLegal nch
  | .extractK2 nch => nchLegal nch

end Sys2Proof
end

