-- ==== Sys2Proof/Decode.lean ====
section
/-! DEFINITION. The command word (spec/30_encoding.md R37): its fields, the decoder of R44, total on all 256 words, and
the encoder. A word that spells no command is rejected by the cause of the ParamError it raises. -/

namespace Sys2Proof

/-- Why a command word spells no command: the three causes of ParamError (R40 to R42, 60_exceptions.md R90). -/
inductive ParamCause where
  /-- bit 7 of the word is 1 (R42) -/
  | rsvSet
  /-- the K field of an `EMBED` or `EXTRACT` word is 0b00 or 0b11 (R40) -/
  | badK
  /-- the NCH field of an `EMBED` or `EXTRACT` word is 0, 1 or 2 (R41) -/
  | badNch
deriving DecidableEq, Repr

/-- `CMD.RSV`, bit 7 (R37). -/
def cmdRsv (w : Byte) : BitVec 1 := w.extractLsb' 7 1
/-- `CMD.NCH`, bits 6:4 (R37). -/
def cmdNch (w : Byte) : BitVec 3 := w.extractLsb' 4 3
/-- `CMD.K`, bits 3:2 (R37). -/
def cmdK (w : Byte) : BitVec 2 := w.extractLsb' 2 2
/-- `CMD.OP`, bits 1:0 (R37). -/
def cmdOp (w : Byte) : BitVec 2 := w.extractLsb' 0 2

/-- The K field holds k itself; 0b00 and 0b11 are reserved (R39, R40). -/
def decodeK (f : BitVec 2) : Option LsbWidth :=
  if f = 0b01#2 then some .k1 else if f = 0b10#2 then some .k2 else none

/-- The K and NCH checks of R44 for an `EMBED` or `EXTRACT` word, in their order of priority. -/
def decodeWalk (mk : LsbWidth → BitVec 3 → Instr) (w : Byte) : Except ParamCause Instr :=
  match decodeK (cmdK w) with
  | none => .error .badK
  | some k => if nchLegal (cmdNch w) then .ok (mk k (cmdNch w)) else .error .badNch

/-- The decode procedure of R44, total on all 256 words. -/
def decode (w : Byte) : Except ParamCause Instr :=
  if cmdRsv w = 1#1 then .error .rsvSet
  else if cmdOp w = 0b00#2 then .ok .bytesToBits
  else if cmdOp w = 0b01#2 then .ok .bitsToBytes
  else if cmdOp w = 0b10#2 then decodeWalk .embed w
  else decodeWalk .extract w

/-- A command word put together from its fields: RSV × 128 + NCH × 16 + K × 4 + OP (R37). -/
def commandWord (rsv : BitVec 1) (nch : BitVec 3) (k op : BitVec 2) : Byte :=
  BitVec.ofNat 8 (rsv.toNat * 128 + nch.toNat * 16 + k.toNat * 4 + op.toNat)

/-- The word of an instruction. A Bit Codec command has 32 words; this is the canonical one, K and NCH zero
(40_bit_codec.md R52, R53). -/
def encode : Instr → Byte
  | .bytesToBits => commandWord 0 0 0 0b00
  | .bitsToBytes => commandWord 0 0 0 0b01
  | .embedK1 nch => commandWord 0 nch 0b01 0b10
  | .embedK2 nch => commandWord 0 nch 0b10 0b10
  | .extractK1 nch => commandWord 0 nch 0b01 0b11
  | .extractK2 nch => commandWord 0 nch 0b10 0b11

/-- One row of the opcode table of R44: a word belongs to the row when its bits under `mask` are `bits` and, where the
row has the constraint, NCH is at least 3. -/
structure OpcodeRow where
  mask : Byte
  bits : Byte
  needsNch : Bool
deriving DecidableEq, Repr

/-- A word belongs to a row (R44: "matches a row" and does not "break its constraint"). -/
def OpcodeRow.holds (r : OpcodeRow) (w : Byte) : Bool :=
  w &&& r.mask == r.bits && (!r.needsNch || nchLegal (cmdNch w))

/-- The row of each instruction, written from R44's table, independently of `decode`. -/
def Instr.row : Instr → OpcodeRow
  | .bytesToBits => ⟨0x83, 0x00, false⟩
  | .bitsToBytes => ⟨0x83, 0x01, false⟩
  | .embedK1 _ => ⟨0x8F, 0x06, true⟩
  | .embedK2 _ => ⟨0x8F, 0x0A, true⟩
  | .extractK1 _ => ⟨0x8F, 0x07, true⟩
  | .extractK2 _ => ⟨0x8F, 0x0B, true⟩

/-- The NCH operand of an instruction that has one. -/
def Instr.nch? : Instr → Option (BitVec 3)
  | .bytesToBits => none
  | .bitsToBytes => none
  | .embedK1 nch => some nch
  | .embedK2 nch => some nch
  | .extractK1 nch => some nch
  | .extractK2 nch => some nch

/-- The 8-bit word an instruction of `nbits` bits has when its bits are `w` numbered as spec/opcode_table.json numbers
them; none where the bits do not fit the one command word there is (R37). -/
def tableWord (nbits w : Nat) : Option Byte :=
  if w % 2 ^ nbits < 256 then some (BitVec.ofNat 8 (w % 2 ^ nbits)) else none

/-- What the decoder reads from an instruction given in the table's bit numbering; none where it refuses. -/
def decodeTableWord (nbits w : Nat) : Option Instr :=
  (tableWord nbits w).bind fun word => (decode word).toOption

end Sys2Proof
end

