-- ==== Sys2Proof/Machine/State.lean ====
section
/-! DEFINITION. The state of the machine as plain data (spec/10_state.md): the nine registers of R11, the six buffers of
R19, and three fields of the model's own (how many resets there have been, what the host read last, what the host does
next); the host's actions; the exceptions of spec/60_exceptions.md R90; the reasons a step can stop; the reset state. -/

namespace Sys2Proof.Machine

/-- A buffer as the list of the elements written since the last reset, each with its index. An index that is not listed
has not been written (log 4). For bytes the entries are `Host.Cell`s. -/
abbrev Memory (α : Type) := List (Nat × α)

/-- The canonical form: indices strictly rising, and every index inside the buffer. An unlisted index reads as "not
written", which no entry can say, so no entry equals it (log 4). -/
abbrev Memory.wf {α : Type} (size : Nat) (m : Memory α) : Prop :=
  m.Pairwise (fun c d => c.1 < d.1) ∧ ∀ c ∈ m, c.1 < size

/-- The causes of FormatError (R13, R90). -/
inductive FormatCause where
  /-- fewer than 32 bits were collected (45_extract.md R84) -/
  | headerShort
  /-- the declared length runs past the collected stream (R86 a) -/
  | bodyShort
  /-- a length that is not a multiple of 8 where bytes are required (40_bit_codec.md R50, 45_extract.md R86 b) -/
  | unaligned
deriving DecidableEq, Repr

/-- The complete list of what a command can raise (R90). An exception is TAKEN: it is a next state (R94), never a fault of
the model. -/
inductive Exception where
  | capacity
  | format (c : FormatCause)
  | param (c : ParamCause)
deriving DecidableEq, Repr

/-- What `STATUS` says of the last command (R13). -/
inductive Status where
  /-- no command has completed since reset -/
  | none
  | ok
  | raised (e : Exception)
deriving DecidableEq, Repr

/-- One action of the host: the complete list of R101, with the element copy of the script notation (30_encoding.md R46).
The interface carries exactly a register's width (R17), so a wider value has no constructor here. -/
inductive HostOp where
  /-- write a register; a write of `CMD` issues the command (R12); a read-only register ignores it (R17) -/
  | writeReg (r : Reg) (v : BitVec r.width)
  /-- read a register (R17) -/
  | readReg (r : Reg)
  /-- write an element of a byte buffer (R21, R101) -/
  | writeByte (b : ByteBuf) (i : Nat) (v : Byte)
  /-- write an element of a bit buffer -/
  | writeBit (b : BitBuf) (i : Nat) (v : Bit)
  /-- read an element of a byte buffer -/
  | readByte (b : ByteBuf) (i : Nat)
  /-- read an element of a bit buffer -/
  | readBit (b : BitBuf) (i : Nat)
  /-- one turn of `CP`: read element `i` of `src` and write the value read to element `i` of `dst` (R46) -/
  | copyByte (dst src : ByteBuf) (i : Nat)
  /-- one turn of `CP` between bit buffers -/
  | copyBit (dst src : BitBuf) (i : Nat)
  /-- the platform applies a reset (R106, R107) -/
  | reset
deriving DecidableEq, Repr

/-- Everything the spec gives the machine, and the three fields of the model's own that stand last. -/
structure State where
  /-- register 0, the command word (R12) -/
  cmd : BitVec 8
  /-- register 1, the outcome of the last command (R13) -/
  status : BitVec 8
  /-- register 2, payload length in bytes (R14) -/
  plen : BitVec 29
  /-- register 3, bitstream length in bits (R14) -/
  blen : BitVec 32
  /-- register 4, pixel count (R14) -/
  npix : BitVec 32
  /-- register 5, bytes the last command wrote to `POUT` (R15) -/
  olen : BitVec 29
  /-- register 6, bits the last command wrote to `BOUT` (R15) -/
  oblen : BitVec 32
  /-- register 7, the "required" figure (R15, R18) -/
  req : BitVec 36
  /-- register 8, the "available" figure (R15, R18) -/
  avail : BitVec 36
  /-- payload input (R19) -/
  pin : Memory Byte
  /-- bitstream input (R19) -/
  bin : Memory Bit
  /-- pixel-channel input (R19) -/
  xin : Memory Sample
  /-- byte output (R19) -/
  pout : Memory Byte
  /-- bitstream output (R19) -/
  bout : Memory Bit
  /-- pixel-channel output (R19) -/
  xout : Memory Sample
  /-- the model's own: resets applied so far; it selects the unspecified buffer contents (log 3) -/
  epoch : Nat
  /-- the model's own: what the host's last read returned (log 13) -/
  hostRead : Nat
  /-- the model's own: what the host does next, first action first (log 1) -/
  host : List HostOp
deriving DecidableEq, Repr

/-- Why the machine stops with a fault. -/
inductive Fault where
  /-- raised by a host access (Machine/HostPort.lean) to an index outside a byte buffer's index range, which does not exist
  (R19). SAFE: the spec has no such access (log 8). -/
  | noByteElement (b : ByteBuf) (i : Nat)
  /-- the same for a bit buffer. SAFE (log 8). -/
  | noBitElement (b : BitBuf) (i : Nat)
deriving DecidableEq, Repr

/-- Why a step has no meaning. -/
inductive Refusal where
  /-- an instruction `exec` gives no meaning yet; no arm uses it in this model. SAFE. -/
  | notModelled (mnemonic : String)
  /-- a command or host access reaches past what the platform implements of a byte buffer (`BUF_LIMIT`): "a model refuses
  it" (R114). It cannot happen on `Config.platform` to a command. SAFE (log 6). -/
  | byteLimit (b : ByteBuf)
  /-- the same for a bit buffer. SAFE (log 6). -/
  | bitLimit (b : BitBuf)
deriving DecidableEq, Repr

/-- The machine right after reset: every register 0, so `STATUS.CODE` = NONE, and no command issued (R106); nothing
written to any buffer (R107); the host has read nothing and does nothing (log 1, log 3, log 13). -/
def State.reset : State :=
  { cmd := 0, status := 0, plen := 0, blen := 0, npix := 0, olen := 0, oblen := 0, req := 0, avail := 0,
    pin := [], bin := [], xin := [], pout := [], bout := [], xout := [],
    epoch := 0, hostRead := 0, host := [] }

end Sys2Proof.Machine
end

