-- ==== Sys2Proof/Machine/Flags.lean ====
section
/-! DEFINITION. The one status the machine has, `STATUS` (spec/10_state.md R13): the numbers of its fields (D11) and the
word they make. There are no condition codes (R22). -/

namespace Sys2Proof.Machine

/-- `STATUS.CAUSE` of a FormatError (R13). -/
def FormatCause.number : FormatCause → Nat
  | .headerShort => 1
  | .bodyShort => 2
  | .unaligned => 3

/-- `STATUS.CAUSE` of a ParamError (R13). -/
def paramCauseNumber : ParamCause → Nat
  | .rsvSet => 1
  | .badK => 2
  | .badNch => 3

/-- `STATUS.CODE`: 0 NONE, 1 OK, 2 CAPACITY_ERROR, 3 FORMAT_ERROR, 4 PARAM_ERROR (R13, R90). -/
def Status.code : Status → Nat
  | .none => 0
  | .ok => 1
  | .raised .capacity => 2
  | .raised (.format _) => 3
  | .raised (.param _) => 4

/-- `STATUS.CAUSE`: 0 unless R13 lists one (R13, R90). -/
def Status.cause : Status → Nat
  | .none => 0
  | .ok => 0
  | .raised .capacity => 0
  | .raised (.format c) => c.number
  | .raised (.param c) => paramCauseNumber c

/-- The whole register: CAUSE in bits 5:3, CODE in bits 2:0, bits 7:6 zero (R13). -/
def Status.word (st : Status) : BitVec 8 := BitVec.ofNat 8 (st.cause * 8 + st.code)

/-- The CODE field of a `STATUS` word (R13). -/
def statusCode (w : BitVec 8) : BitVec 3 := w.extractLsb' 0 3

/-- The CAUSE field of a `STATUS` word (R13). -/
def statusCause (w : BitVec 8) : BitVec 3 := w.extractLsb' 3 3

end Sys2Proof.Machine
end

