-- ==== Sys2Proof/Machine/Ops.lean ====
section
/-! DEFINITION. The named operations over buffers and registers that every command and host action uses: reading and
writing elements (spec/00_scope.md section 6), writing the five engine registers (spec/10_state.md R15), taking an exception
(spec/60_exceptions.md R94), and the platform's buffer limits (spec/70_reset_and_hazards.md R114). -/

namespace Sys2Proof.Machine

/-- The element written last at an index, or none where nothing has been written. -/
def Memory.get? {α : Type} : Memory α → Nat → Option α
  | [], _ => none
  | (i, v) :: m, a => if a = i then some v else Memory.get? m a

/-- `MemWrite(SP, a, v)`: element `a` becomes `v`; the list stays sorted. -/
def Memory.write {α : Type} : Memory α → Nat → α → Memory α
  | [], a, v => [(a, v)]
  | (i, u) :: m, a, v =>
    if a < i then (a, v) :: (i, u) :: m
    else if a = i then (a, v) :: m
    else (i, u) :: Memory.write m a v

/-- `MemWrite(SP, a, n, V)`: the elements of `V` at `a`, `a + 1`, ... in that order. -/
def Memory.writeSeq {α : Type} (m : Memory α) (a : Nat) : List α → Memory α
  | [] => m
  | v :: vs => Memory.writeSeq (m.write a v) (a + 1) vs

/-- A byte buffer of the state. -/
def State.bytes (s : State) : ByteBuf → Memory Byte
  | .pin => s.pin
  | .xin => s.xin
  | .pout => s.pout
  | .xout => s.xout

/-- A bit buffer of the state. -/
def State.bitsOf (s : State) : BitBuf → Memory Bit
  | .bin => s.bin
  | .bout => s.bout

/-- The state with one byte buffer replaced. The six buffers do not overlap (R19). -/
def State.setBytes (s : State) (b : ByteBuf) (m : Memory Byte) : State :=
  match b with
  | .pin => { s with pin := m }
  | .xin => { s with xin := m }
  | .pout => { s with pout := m }
  | .xout => { s with xout := m }

/-- The state with one bit buffer replaced. -/
def State.setBits (s : State) (b : BitBuf) (m : Memory Bit) : State :=
  match b with
  | .bin => { s with bin := m }
  | .bout => { s with bout := m }

/-- `MemRead(SP, a)` of a byte buffer: what was written there last, or the unspecified content of an element nothing has
written since the last reset; a read never faults and has no side effect (R33, R107, log 3). -/
def State.readByte (s : State) (b : ByteBuf) (a : Nat) : Byte :=
  ((s.bytes b).get? a).getD (Config.unwrittenByte s.epoch b a)

/-- `MemRead(SP, a)` of a bit buffer (R33, R107, log 3). -/
def State.readBit (s : State) (b : BitBuf) (a : Nat) : Bit :=
  ((s.bitsOf b).get? a).getD (Config.unwrittenBit s.epoch b a)

/-- `MemRead(SP, 0, n)` of a byte buffer, lowest index first. -/
def State.readBytes (s : State) (b : ByteBuf) (n : Nat) : List Byte :=
  (List.range n).map (s.readByte b)

/-- `MemRead(SP, 0, n)` of a bit buffer, lowest index first. -/
def State.readBits (s : State) (b : BitBuf) (n : Nat) : Bits :=
  (List.range n).map (s.readBit b)

/-- `MemWrite(SP, a, v)` of a byte buffer. -/
def State.writeByte (s : State) (b : ByteBuf) (a : Nat) (v : Byte) : State :=
  s.setBytes b ((s.bytes b).write a v)

/-- `MemWrite(SP, a, v)` of a bit buffer. -/
def State.writeBit (s : State) (b : BitBuf) (a : Nat) (v : Bit) : State :=
  s.setBits b ((s.bitsOf b).write a v)

/-- `MemWrite(SP, 0, n, V)` of a byte buffer. -/
def State.writeBytes (s : State) (b : ByteBuf) (vs : List Byte) : State :=
  s.setBytes b ((s.bytes b).writeSeq 0 vs)

/-- `MemWrite(SP, 0, n, V)` of a bit buffer. -/
def State.writeBits (s : State) (b : BitBuf) (vs : Bits) : State :=
  s.setBits b ((s.bitsOf b).writeSeq 0 vs)

/-- The end of every command: all five engine-written registers are written, and nothing else (R15). The figures are natural
numbers; R18 says that they fit. -/
def State.report (s : State) (st : Status) (olen oblen req avail : Nat) : State :=
  { s with
    status := st.word
    olen := BitVec.ofNat 29 olen
    oblen := BitVec.ofNat 32 oblen
    req := BitVec.ofNat 36 req
    avail := BitVec.ofNat 36 avail }

/-- TAKING AN EXCEPTION (R94): no buffer is written, `STATUS` takes the exception's code and cause, `OLEN` and `OBLEN` are 0,
`REQ` and `AVAIL` take the recorded figures, `CMD`, the operand registers and everything else stay. Nothing is saved and
control goes nowhere (R97); there is no return (R98). -/
def State.raise (s : State) (e : Exception) (req avail : Nat) : State :=
  s.report (.raised e) 0 0 req avail

/-- A command goes on only if it stays within the first `n` elements that the platform implements of a byte buffer; beyond
`BUF_LIMIT` it has no meaning and is refused (R114, log 7). -/
def withinBytes (pf : Config.Platform) (b : ByteBuf) (n : Nat) (next : Host.Outcome State Fault Refusal) :
    Host.Outcome State Fault Refusal :=
  if n ≤ pf.byteLimit b then next else .refused (.byteLimit b)

/-- The same for a bit buffer (R114, log 7). -/
def withinBits (pf : Config.Platform) (b : BitBuf) (n : Nat) (next : Host.Outcome State Fault Refusal) :
    Host.Outcome State Fault Refusal :=
  if n ≤ pf.bitLimit b then next else .refused (.bitLimit b)

end Sys2Proof.Machine
end

