-- ==== Sys2Proof/Machine/BitCodec.lean ====
section
/-! DEFINITION. The Bit Codec's primitives (spec/40_bit_codec.md R47 to R51) and the two readings of a bitstream every unit
shares: a slice, and the number whose first digit is the most significant (spec/20_memory.md R28 to R30). -/

namespace Sys2Proof.Machine

/-- `B[i..j)`, half-open; empty when `j ≤ i` (00_scope.md section 5). -/
def slice (B : Bits) (i j : Nat) : Bits := (B.drop i).take (j - i)

/-- A bitstream read as an unsigned number, index 0 the most significant digit (R28, R29, R30). -/
def msbNumber (B : Bits) : Nat := B.foldl (fun n b => 2 * n + b.toNat) 0

/-- `SER8(b)`: one byte to eight bits, `G[j] = b[7 - j]` (R47). -/
def ser8 (b : Byte) : Bits := (List.range 8).map fun j => b.getLsbD (7 - j)

/-- `SER(D)`: the bytes' bits, concatenated in input order (R48). -/
def ser (D : List Byte) : Bits := D.flatMap ser8

/-- `DES8(G)`: eight bits to one byte, the sum of `G[j] * 2^(7 - j)` (R49). -/
def des8 (G : Bits) : Byte := BitVec.ofNat 8 (msbNumber G)

/-- One byte for each whole 8-bit group of a bitstream (R50); trailing bits that fill no group have no byte. -/
def desGroups (B : Bits) : List Byte :=
  (List.range (B.length / 8)).map fun i => des8 (slice B (8 * i) (8 * i + 8))

/-- `DES(B)`: a length that is not a multiple of 8 raises FormatError(UNALIGNED) under `STRICT` and loses its trailing bits
under `LENIENT` (R50, D8). -/
def des (policy : FormatPolicy) (B : Bits) : Except FormatCause (List Byte) :=
  if B.length % 8 ≠ 0 ∧ policy = .strict then .error .unaligned else .ok (desGroups B)

end Sys2Proof.Machine
end

