-- ==== Sys2Proof/Machine/Distributor.lean ====
section
/-! DEFINITION. The LSB bit distributor: k stream bits into, or out of, the low bits of one sample
(spec/42_lsb_distributor.md R60 to R66). k is 1 or 2 only (U14). -/

namespace Sys2Proof.Machine

/-- `LOWMASK(k)` = 2^k - 1 (R60). -/
def lowmask (k : LsbWidth) : Byte := BitVec.ofNat 8 (2 ^ k.bits - 1)

/-- `MASK(k)` = 0xFF ^ LOWMASK(k) (R61). -/
def mask (k : LsbWidth) : Byte := 0xFF#8 ^^^ lowmask k

/-- `GROUP(F, i, k)`: the next k bits as a number, the earlier bit the more significant (R62). -/
def group (F : Bits) (i : Nat) (k : LsbWidth) : Nat := msbNumber (slice F i (i + k.bits))

/-- `UNGROUP(g, k)`: `U[j] = g[k - 1 - j]` (R63). -/
def ungroup (g : Nat) (k : LsbWidth) : Bits :=
  (List.range k.bits).map fun j => g.testBit (k.bits - 1 - j)

/-- `INS(s, g, k) = (s & MASK(k)) | g` (R64). -/
def ins (s : Sample) (g : Nat) (k : LsbWidth) : Sample := (s &&& mask k) ||| BitVec.ofNat 8 g

/-- `EXT(s, k) = s & LOWMASK(k)` (R65). -/
def ext (s : Sample) (k : LsbWidth) : Nat := (s &&& lowmask k).toNat

end Sys2Proof.Machine
end

