-- ==== Sys2Proof/Machine/ChannelMux.lean ====
section
/-! DEFINITION. The pixel-channel multiplexer: which sample carries which bits (spec/43_channel_mux.md R68 to R74). -/

namespace Sys2Proof.Machine

/-- `CARRIER(p, c)` = 3 p + c: a carrier's number (R68). -/
def carrier (p c : Nat) : Nat := Config.ncarry * p + c

/-- The pixel of a carrier (R68). -/
def carrierPixel (q : Nat) : Nat := q / Config.ncarry

/-- The channel of a carrier (R68). -/
def carrierChannel (q : Nat) : Nat := q % Config.ncarry

/-- `SADDR(p, c)` = p × NCH + c: where a sample stands in `XIN` and `XOUT` (R69). -/
def saddr (nch p c : Nat) : Nat := p * nch + c

/-- Where carrier q stands (R69). -/
def carrierAddr (nch q : Nat) : Nat := saddr nch (carrierPixel q) (carrierChannel q)

/-- The carrier a stream index belongs to (R72). -/
def streamCarrier (k : LsbWidth) (i : Nat) : Nat := i / k.bits

/-- The sample bit a stream index belongs to (R72). -/
def streamSampleBit (k : LsbWidth) (i : Nat) : Nat := k.bits - 1 - i % k.bits

/-- The stream bits an image of `npix` pixels holds, "available", and what `EXTRACT` collects (R73, R76). -/
def available (npix : Nat) (k : LsbWidth) : Nat := npix * Config.ncarry * k.bits

/-- The channels of a pixel that carry data, in order R, G, B (R68, R70). -/
def carryingChannels : List Nat := List.range Config.ncarry

/-- The channels of a pixel beyond the third, in order (R70, R71). -/
def passChannels (nch : Nat) : List Nat := List.range' Config.ncarry (nch - Config.ncarry)

end Sys2Proof.Machine
end

