-- ==== Sys2Proof/Machine/LengthCodec.lean ====
section
/-! DEFINITION. The big-endian length encoder and decoder and the frame (spec/41_length_codec.md R55 to R58). -/

namespace Sys2Proof.Machine

/-- `big_endian_u32(n)`: the four bytes of a 32-bit number, most significant first (30_encoding.md R46). -/
def bigEndianU32 (L : BitVec 32) : List Byte :=
  [L.extractLsb' 24 8, L.extractLsb' 16 8, L.extractLsb' 8 8, L.extractLsb' 0 8]

/-- `ENC32(L)`: the 32 header bits, `H[j] = L[31 - j]` (R55). -/
def enc32 (L : BitVec 32) : Bits := (List.range Config.hdrW).map fun j => L.getLsbD (31 - j)

/-- `DEC32(H)`: 32 header bits to a length, the sum of `H[j] * 2^(31 - j)` (R56). -/
def dec32 (H : Bits) : Nat := msbNumber H

/-- `FRAME(D) = ENC32(8n) ++ SER(D)` (R57). -/
def frame (D : List Byte) : Bits := enc32 (BitVec.ofNat 32 (8 * D.length)) ++ ser D

end Sys2Proof.Machine
end

