-- ==== Sys2Proof/Machine/Operands.lean ====
section
/-! DEFINITION. How each operand of a command is put together from the state (spec/30_encoding.md R45). The operand registers
and buffers are read as they stand at the `CMD` write (spec/20_memory.md R36). -/

namespace Sys2Proof.Machine

/-- `PIN[0..PLEN)` (R45 b). -/
def State.payload (s : State) : List Byte := s.readBytes .pin s.plen.toNat

/-- `BIN[0..BLEN)` (40_bit_codec.md R53). -/
def State.bitstream (s : State) : Bits := s.readBits .bin s.blen.toNat

/-- The sample of pixel p, channel c (R45 f). -/
def State.sample (s : State) (nch p c : Nat) : Sample := s.readByte .xin (saddr nch p c)

/-- "required" = 32 + 8 × PLEN (44_embed.md R76). -/
def State.required (s : State) : Nat := Config.hdrW + 8 * s.plen.toNat

/-- "available" = NPIX × 3 × k (44_embed.md R76, 43_channel_mux.md R73). -/
def State.available (s : State) (k : LsbWidth) : Nat := Machine.available s.npix.toNat k

/-- The stream `EXTRACT` collects: from every pixel in order, from its first three channels in order, the low k bits as a
k-bit group (45_extract.md R82 step 1, R83). -/
def State.collected (s : State) (k : LsbWidth) (nch : Nat) : Bits :=
  (List.range s.npix.toNat).flatMap fun p =>
    carryingChannels.flatMap fun c => ungroup (ext (s.sample nch p c) k) k

end Sys2Proof.Machine
end

