-- ==== Sys2Proof/Machine/BitCodecCommands.lean ====
section
/-! DEFINITION. `BYTES_TO_BITS` and `BITS_TO_BYTES` (spec/40_bit_codec.md R52, R53). -/

namespace Sys2Proof.Machine

/-- `BYTES_TO_BITS` on a platform (R52): `BOUT[0..8 PLEN)` takes `SER(PIN[0..PLEN))`; it raises nothing. -/
def bytesToBitsOn (pf : Config.Platform) (s : State) : Host.Outcome State Fault Refusal :=
  withinBytes pf .pin s.plen.toNat <|
  withinBits pf .bout (8 * s.plen.toNat) <|
  .next ((s.writeBits .bout (ser s.payload)).report .ok 0 (8 * s.plen.toNat) 0 0)

/-- `BITS_TO_BYTES` on a platform (R53): `POUT[0..BLEN / 8)` takes `DES(BIN[0..BLEN))`, or FormatError(UNALIGNED) is taken. -/
def bitsToBytesOn (pf : Config.Platform) (s : State) : Host.Outcome State Fault Refusal :=
  withinBits pf .bin s.blen.toNat <|
  withinBytes pf .pout (s.blen.toNat / 8) <|
  match des pf.policy s.bitstream with
  | .error c => .next (s.raise (.format c) 0 0)
  | .ok D => .next ((s.writeBytes .pout D).report .ok (s.blen.toNat / 8) 0 0 0)

/-- `BYTES_TO_BITS` on this hardware (R52). -/
def execBytesToBits (s : State) : Host.Outcome State Fault Refusal :=
  bytesToBitsOn Config.platform s

/-- `BITS_TO_BYTES` on this hardware (R53). -/
def execBitsToBytes (s : State) : Host.Outcome State Fault Refusal :=
  bitsToBytesOn Config.platform s

end Sys2Proof.Machine
end

