-- ==== Sys2Proof/Machine/Embed.lean ====
section
/-! DEFINITION. The `EMBED` command (spec/44_embed.md R75), by the loop of the rule's pseudocode. -/

namespace Sys2Proof.Machine

/-- The working state of the walk (spec/10_state.md R23): the consumption cursor and the output written so far. -/
structure Walk where
  cur : Nat
  out : Memory Sample
deriving DecidableEq, Repr

/-- Steps 4 of R75 at one carrier: while frame bits remain, the next k of them go into the sample and the cursor advances by
k; afterwards the sample is copied (43_channel_mux.md R71 b). -/
def embedCarrier (k : LsbWidth) (F : Bits) (a : Nat) (x : Sample) (w : Walk) : Walk :=
  if w.cur < F.length then
    { cur := w.cur + k.bits, out := w.out.write a (ins x (group F w.cur k) k) }
  else
    { cur := w.cur, out := w.out.write a x }

/-- One pixel of the walk: its first three channels in order, then step 5, the copy of every further channel
(43_channel_mux.md R70, R71 a). `x` reads the input sample at an index. -/
def embedPixel (k : LsbWidth) (nch : Nat) (F : Bits) (x : Nat → Sample) (w : Walk) (p : Nat) : Walk :=
  let w := carryingChannels.foldl (fun w c => embedCarrier k F (saddr nch p c) (x (saddr nch p c)) w) w
  { w with out := (passChannels nch).foldl (fun m c => m.write (saddr nch p c) (x (saddr nch p c))) w.out }

/-- The whole walk over pixels 0 to `npix - 1`, the cursor from 0 (R75). -/
def embedWalk (k : LsbWidth) (nch : Nat) (F : Bits) (x : Nat → Sample) (npix : Nat) (out : Memory Sample) : Walk :=
  (List.range npix).foldl (embedPixel k nch F x) { cur := 0, out := out }

/-- `EMBED` on a platform (R75): CapacityError is taken before any write (R77); otherwise `XOUT[0..NPIX × NCH)` is written.
An NCH below 3 takes ParamError(BAD_NCH) (30_encoding.md R41; the decoder never lets one through, log 9). -/
def embedOn (pf : Config.Platform) (k : LsbWidth) (nch : BitVec 3) (s : State) : Host.Outcome State Fault Refusal :=
  if nchLegal nch then
    withinBytes pf .pin s.plen.toNat <|
    withinBytes pf .xin (s.npix.toNat * nch.toNat) <|
    withinBytes pf .xout (s.npix.toNat * nch.toNat) <|
    if s.required > s.available k then
      .next (s.raise .capacity s.required (s.available k))
    else
      let w := embedWalk k nch.toNat (frame s.payload) (s.readByte .xin) s.npix.toNat s.xout
      .next ((s.setBytes .xout w.out).report .ok 0 0 s.required (s.available k))
  else
    .next (s.raise (.param .badNch) 0 0)

/-- `EMBED.K1` on this hardware (R75 with k = 1). -/
def execEmbedK1 (nch : BitVec 3) (s : State) : Host.Outcome State Fault Refusal :=
  embedOn Config.platform .k1 nch s

/-- `EMBED.K2` on this hardware (R75 with k = 2). -/
def execEmbedK2 (nch : BitVec 3) (s : State) : Host.Outcome State Fault Refusal :=
  embedOn Config.platform .k2 nch s

end Sys2Proof.Machine
end

