-- ==== Sys2Proof/Machine/Extract.lean ====
section
/-! DEFINITION. The `EXTRACT` command (spec/45_extract.md R82 to R87). -/

namespace Sys2Proof.Machine

/-- What `EXTRACT` makes of a collected stream of 32 bits or more that declares `L` payload bits: the two anomalies raise
under `STRICT`, BODY_SHORT before UNALIGNED (R86, R95), and shorten the payload under `LENIENT` (R87); otherwise the payload
bits are `S[32 .. 32 + L)` (R85). -/
def payloadBits (policy : FormatPolicy) (S : Bits) (L : Nat) : Except FormatCause Bits :=
  match policy with
  | .strict =>
    if Config.hdrW + L > S.length then .error .bodyShort
    else if L % 8 ≠ 0 then .error .unaligned
    else .ok (slice S Config.hdrW (Config.hdrW + L))
  | .lenient => .ok (slice S Config.hdrW (min (Config.hdrW + L) S.length))

/-- The part of `EXTRACT` that looks at the collected stream `S`: HEADER_SHORT under both policies (R84), then the declared
length and the payload (R85 to R87). Whole bytes of the payload bits go to `POUT`. -/
def extractFrom (pf : Config.Platform) (S : Bits) (s : State) : Host.Outcome State Fault Refusal :=
  if S.length < Config.hdrW then
    .next (s.raise (.format .headerShort) Config.hdrW S.length)
  else
    let L := dec32 (slice S 0 Config.hdrW)
    match payloadBits pf.policy S L with
    | .error c => .next (s.raise (.format c) (Config.hdrW + L) S.length)
    | .ok B =>
      withinBytes pf .pout (B.length / 8) <|
      .next ((s.writeBytes .pout (desGroups B)).report .ok (B.length / 8) 0 (Config.hdrW + L) S.length)

/-- How many elements of `XIN` reach as far as the last carrier: `EXTRACT` reads channels 0 to 2 of pixels 0 to `npix - 1`
and nothing beyond (spec/20_memory.md R27). -/
def carrierReach (nch npix : Nat) : Nat :=
  if npix = 0 then 0 else saddr nch (npix - 1) Config.ncarry

/-- `EXTRACT` on a platform (R82). An NCH below 3 takes
ParamError(BAD_NCH) (30_encoding.md R41; the decoder never lets one through, log 9). -/
def extractOn (pf : Config.Platform) (k : LsbWidth) (nch : BitVec 3) (s : State) : Host.Outcome State Fault Refusal :=
  if nchLegal nch then
    withinBytes pf .xin (carrierReach nch.toNat s.npix.toNat) <|
    extractFrom pf (s.collected k nch.toNat) s
  else
    .next (s.raise (.param .badNch) 0 0)

/-- `EXTRACT.K1` on this hardware (R82 with k = 1). -/
def execExtractK1 (nch : BitVec 3) (s : State) : Host.Outcome State Fault Refusal :=
  extractOn Config.platform .k1 nch s

/-- `EXTRACT.K2` on this hardware (R82 with k = 2). -/
def execExtractK2 (nch : BitVec 3) (s : State) : Host.Outcome State Fault Refusal :=
  extractOn Config.platform .k2 nch s

end Sys2Proof.Machine
end

