-- ==== Sys2Proof/Machine/Commands.lean ====
section
/-! DEFINITION. Every command on any platform, so that what the spec says "under both policies" (spec/45_extract.md R88) or of
another `BUF_LIMIT` (spec/70_reset_and_hazards.md R114) can be stated. On `Config.platform` it is `exec`. -/

namespace Sys2Proof.Machine

/-- A command on a platform. -/
def commandOn (pf : Config.Platform) (i : Instr) (s : State) : Host.Outcome State Fault Refusal :=
  match i with
  | .bytesToBits => bytesToBitsOn pf s
  | .bitsToBytes => bitsToBytesOn pf s
  | .embedK1 nch => embedOn pf .k1 nch s
  | .embedK2 nch => embedOn pf .k2 nch s
  | .extractK1 nch => extractOn pf .k1 nch s
  | .extractK2 nch => extractOn pf .k2 nch s

end Sys2Proof.Machine
end

