-- ==== Sys2Proof/Machine/Dispatch.lean ====
section
/-! DEFINITION. What each command does: one arm per constructor of `Instr`. -/

namespace Sys2Proof.Machine

/-- The effect of a decoded command (spec/30_encoding.md R38). -/
def exec (i : Instr) (s : State) : Host.Outcome State Fault Refusal :=
  match i with
  | .bytesToBits => Sys2Proof.Machine.execBytesToBits s
  | .bitsToBytes => Sys2Proof.Machine.execBitsToBytes s
  | .embedK1 nch => Sys2Proof.Machine.execEmbedK1 nch s
  | .embedK2 nch => Sys2Proof.Machine.execEmbedK2 nch s
  | .extractK1 nch => Sys2Proof.Machine.execExtractK1 nch s
  | .extractK2 nch => Sys2Proof.Machine.execExtractK2 nch s

end Sys2Proof.Machine
end

