-- ==== Sys2Proof/Machine/HostPort.lean ====
section
/-! DEFINITION. The host interface (spec/10_state.md R12, R17, R21; spec/60_exceptions.md R101): what each action of the host
does, issuing a command among them, and the script notation of spec/30_encoding.md R46. -/

namespace Sys2Proof.Machine

/-- A write of `w` to `CMD` where `run` performs commands: the word is stored, then the engine decodes it and performs the
command, or takes ParamError, which reads no operand and writes no buffer (R12, R44, R93). -/
def issueWith (run : Instr → State → Host.Outcome State Fault Refusal) (w : Byte) (s : State) :
    Host.Outcome State Fault Refusal :=
  let s := { s with cmd := w }
  match decode w with
  | .error c => .next (s.raise (.param c) 0 0)
  | .ok i => run i s

/-- A write of `w` to `CMD` on this hardware. -/
def issue (w : Byte) (s : State) : Host.Outcome State Fault Refusal :=
  issueWith exec w s

/-- A write of `w` to `CMD` on any platform: a command whose ranges exceed what the platform implements is refused
(70_reset_and_hazards.md R114, log 7). -/
def issueOn (pf : Config.Platform) (w : Byte) (s : State) : Host.Outcome State Fault Refusal :=
  issueWith (commandOn pf) w s

/-- The value of a register (R11, R17). -/
def State.readReg (s : State) (r : Reg) : BitVec r.width :=
  match r with
  | .cmd => s.cmd
  | .status => s.status
  | .plen => s.plen
  | .blen => s.blen
  | .npix => s.npix
  | .olen => s.olen
  | .oblen => s.oblen
  | .req => s.req
  | .avail => s.avail

/-- A host write to a register: `CMD` issues the command, as `cmdWrite` does it (R12), an operand register takes the value
(R14), a read-only register ignores it (R17). -/
def hostWriteReg (cmdWrite : Byte → State → Host.Outcome State Fault Refusal) (s : State) (r : Reg) (v : BitVec r.width) :
    Host.Outcome State Fault Refusal :=
  match r with
  | .cmd => cmdWrite v s
  | .plen => .next { s with plen := v }
  | .blen => .next { s with blen := v }
  | .npix => .next { s with npix := v }
  | .status => .next s
  | .olen => .next s
  | .oblen => .next s
  | .req => .next s
  | .avail => .next s

/-- A host access to element `i` of a byte buffer: there is no element outside the index range (R19, log 8), and none the
platform does not implement (R114). -/
def accessByte (pf : Config.Platform) (b : ByteBuf) (i : Nat) (next : Host.Outcome State Fault Refusal) :
    Host.Outcome State Fault Refusal :=
  if i < b.size then withinBytes pf b (i + 1) next else .fault (.noByteElement b i)

/-- The same for a bit buffer. -/
def accessBit (pf : Config.Platform) (b : BitBuf) (i : Nat) (next : Host.Outcome State Fault Refusal) :
    Host.Outcome State Fault Refusal :=
  if i < b.size then withinBits pf b (i + 1) next else .fault (.noBitElement b i)

/-- What a host read gives the host. It has no effect on any register or buffer (R17, log 13). -/
def State.hostGets (s : State) (v : Nat) : State := { s with hostRead := v }

/-- A reset: every register 0, no command issued (R106), every buffer's content unspecified (R107): nothing is written any
more and the free values are those of the next epoch. What the host has read and will do is the host's own and stays. -/
def State.applyReset (s : State) : State :=
  { State.reset with epoch := s.epoch + 1, hostRead := s.hostRead, host := s.host }

/-- One action of the host (R101) on a platform, where `cmdWrite` is what a write of `CMD` does. -/
def hostActWith (cmdWrite : Byte → State → Host.Outcome State Fault Refusal) (pf : Config.Platform) (op : HostOp) (s : State) :
    Host.Outcome State Fault Refusal :=
  match op with
  | .writeReg r v => hostWriteReg cmdWrite s r v
  | .readReg r => .next (s.hostGets (s.readReg r).toNat)
  | .writeByte b i v => accessByte pf b i (.next (s.writeByte b i v))
  | .writeBit b i v => accessBit pf b i (.next (s.writeBit b i v))
  | .readByte b i => accessByte pf b i (.next (s.hostGets (s.readByte b i).toNat))
  | .readBit b i => accessBit pf b i (.next (s.hostGets (s.readBit b i).toNat))
  | .copyByte dst src i =>
    accessByte pf src i <| accessByte pf dst i <|
    .next ((s.hostGets (s.readByte src i).toNat).writeByte dst i (s.readByte src i))
  | .copyBit dst src i =>
    accessBit pf src i <| accessBit pf dst i <|
    .next ((s.hostGets (s.readBit src i).toNat).writeBit dst i (s.readBit src i))
  | .reset => .next s.applyReset

/-- One action of the host on any platform, a `CMD` write included (R101, R114). -/
def hostAct (pf : Config.Platform) (op : HostOp) (s : State) : Host.Outcome State Fault Refusal :=
  hostActWith (issueOn pf) pf op s

/-- The next action of the host, on this hardware; when it issues no more, the block is idle and keeps all its state (R103, R118, log 2). -/
def hostStep (s : State) : Host.Outcome State Fault Refusal :=
  match s.host with
  | [] => .next s
  | op :: rest => hostActWith issue Config.platform op { s with host := rest }

/-- The write of `CMD` that issues a command word, as the next action of the host (log 1, log 23). -/
def State.issueNext (s : State) (w : Byte) : State :=
  { s with host := .writeReg .cmd w :: s.host }

namespace Script

/-- `WR <reg>, <value>` (R46). -/
def wr (r : Reg) (v : BitVec r.width) : List HostOp := [.writeReg r v]

/-- `LD <buffer>, [e0 e1 ...]` of a byte buffer: the elements at indices 0, 1, ... (R46). -/
def ld (b : ByteBuf) (vs : List Byte) : List HostOp :=
  (List.range vs.length).map fun i => .writeByte b i (vs.getD i 0)

/-- `LD` of a bit buffer. -/
def ldBits (b : BitBuf) (vs : Bits) : List HostOp :=
  (List.range vs.length).map fun i => .writeBit b i (vs.getD i false)

/-- A command: the host writes its word to `CMD` (R46). -/
def command (i : Instr) : List HostOp := [.writeReg .cmd (encode i)]

/-- `RD <reg>` (R46). -/
def rd (r : Reg) : List HostOp := [.readReg r]

/-- `CP <dst>, <src>, <n>` between byte buffers: index 0 up (R46). -/
def cp (dst src : ByteBuf) (n : Nat) : List HostOp :=
  (List.range n).map fun i => .copyByte dst src i

/-- `CP` between bit buffers. -/
def cpBits (dst src : BitBuf) (n : Nat) : List HostOp :=
  (List.range n).map fun i => .copyBit dst src i

end Script

end Sys2Proof.Machine
end

