-- ==== Sys2Proof/Machine/Step.lean ====
section
/-! DEFINITION. One step of the machine: the host's next action, a command among them performed whole (spec/10_state.md R10,
R16: there is no program counter and no fetch; the host is the sequencer). -/

namespace Sys2Proof.Machine

/-- One step: the next action of the host, or idling when there is none. -/
def step (s : State) : Host.Outcome State Fault Refusal :=
  hostStep s

/-- `s` with the instruction whose bits are `w` (numbered as spec/opcode_table.json numbers them) as the very next command
the host issues. This hardware has no instruction memory: an instruction comes to run when the host writes its word to `CMD`
(spec/10_state.md R12, R16, log 1), so the write is put first among the host's actions; nothing else changes. -/
def State.withFetchWord (s : State) (nbits w : Nat) : State :=
  s.issueNext (BitVec.ofNat 8 (w % 2 ^ nbits))

end Sys2Proof.Machine
end

