-- ==== Sys2Proof/Safety.lean ====
section
/-! DEFINITION. The terms the claims use: what "unchanged" means for each kind of state, what a command reports, what taking an
exception is, the invariants of the machine, what a command reads, and what a safe run of host actions is. -/

namespace Sys2Proof.Machine

/-- A byte buffer reads the same at every index. -/
def State.byteBufKept (s t : State) (b : ByteBuf) : Prop := ∀ a, t.readByte b a = s.readByte b a

/-- A bit buffer reads the same at every index. -/
def State.bitBufKept (s t : State) (b : BitBuf) : Prop := ∀ a, t.readBit b a = s.readBit b a

/-- The three input buffers read the same everywhere (spec/10_state.md R20). -/
def State.inputsKept (s t : State) : Prop :=
  s.byteBufKept t .pin ∧ s.bitBufKept t .bin ∧ s.byteBufKept t .xin

/-- The three output buffers read the same everywhere. -/
def State.outputsKept (s t : State) : Prop :=
  s.byteBufKept t .pout ∧ s.bitBufKept t .bout ∧ s.byteBufKept t .xout

/-- All that no command ever writes besides buffers: `CMD` (written by the host, before the command), the operand registers
(spec/10_state.md R14), and the model's own fields. -/
def State.hostSideKept (s t : State) : Prop :=
  t.cmd = s.cmd ∧ t.plen = s.plen ∧ t.blen = s.blen ∧ t.npix = s.npix ∧
  t.epoch = s.epoch ∧ t.hostRead = s.hostRead ∧ t.host = s.host

/-- The five engine-written registers hold this outcome, each figure exact as a natural number (spec/10_state.md R15, R18). -/
def State.reports (t : State) (st : Status) (olen oblen req avail : Nat) : Prop :=
  t.status = st.word ∧ t.olen.toNat = olen ∧ t.oblen.toNat = oblen ∧ t.req.toNat = req ∧ t.avail.toNat = avail

/-- The five engine-written registers are equal in two states (spec/10_state.md R15). -/
def State.sameResults (s t : State) : Prop :=
  t.status = s.status ∧ t.olen = s.olen ∧ t.oblen = s.oblen ∧ t.req = s.req ∧ t.avail = s.avail

/-- The outcome is that an exception is taken from `s` (spec/60_exceptions.md R94): a next state in which no buffer element,
no operand register and not `CMD` has changed, `STATUS` holds the exception, `OLEN` and `OBLEN` are 0, and `REQ` and `AVAIL`
hold the recorded figures. -/
def takesException (s : State) (o : Host.Outcome State Fault Refusal) (e : Exception) (req avail : Nat) : Prop :=
  ∃ t, o = .next t ∧ t.reports (.raised e) 0 0 req avail ∧ s.hostSideKept t ∧ s.inputsKept t ∧ s.outputsKept t

/-- The platform implements every buffer over its whole index range (spec/10_state.md R19). -/
def wholeBuffers (pf : Config.Platform) : Prop :=
  (∀ b, pf.byteLimit b = ByteBuf.size b) ∧ (∀ b, pf.bitLimit b = BitBuf.size b)

/-- Every buffer is in canonical form inside its index range (spec/10_state.md R19). -/
abbrev State.buffersWf (s : State) : Prop :=
  Memory.wf ByteBuf.pin.size s.pin ∧ Memory.wf BitBuf.bin.size s.bin ∧ Memory.wf ByteBuf.xin.size s.xin ∧
  Memory.wf ByteBuf.pout.size s.pout ∧ Memory.wf BitBuf.bout.size s.bout ∧ Memory.wf ByteBuf.xout.size s.xout

/-- What the four result registers can hold after a command that completed `OK` (spec/40_bit_codec.md R52, R53,
spec/44_embed.md R75, R77, spec/45_extract.md R82, R86, `STRICT`). -/
def State.okFigures (s : State) (i : Instr) : Prop :=
  match i with
  | .bytesToBits => s.olen = 0 ∧ s.oblen.toNat % 8 = 0 ∧ s.req = 0 ∧ s.avail = 0
  | .bitsToBytes => s.oblen = 0 ∧ s.req = 0 ∧ s.avail = 0
  | .embedK1 _ | .embedK2 _ =>
    s.olen = 0 ∧ s.oblen = 0 ∧ 32 ≤ s.req.toNat ∧ s.req.toNat % 8 = 0 ∧ s.req.toNat ≤ s.avail.toNat
  | .extractK1 _ | .extractK2 _ =>
    s.oblen = 0 ∧ s.req.toNat = 32 + 8 * s.olen.toNat ∧ s.req.toNat ≤ s.avail.toNat

/-- What `REQ` and `AVAIL` can hold after a command that raised, and which command can raise it (spec/60_exceptions.md R90,
`STRICT`). -/
def State.raiseFigures (s : State) (e : Exception) : Prop :=
  match e with
  | .capacity => (∃ k nch, decode s.cmd = .ok (.embed k nch)) ∧ s.avail.toNat < s.req.toNat
  | .format .headerShort =>
    (∃ k nch, decode s.cmd = .ok (.extract k nch)) ∧ s.req.toNat = 32 ∧ s.avail.toNat < 32
  | .format .bodyShort =>
    (∃ k nch, decode s.cmd = .ok (.extract k nch)) ∧ 32 ≤ s.avail.toNat ∧ s.avail.toNat < s.req.toNat
  | .format .unaligned =>
    (decode s.cmd = .ok .bitsToBytes ∧ s.req = 0 ∧ s.avail = 0) ∨
    ((∃ k nch, decode s.cmd = .ok (.extract k nch)) ∧ 32 ≤ s.req.toNat ∧ s.req.toNat % 8 ≠ 0 ∧
      s.req.toNat ≤ s.avail.toNat)
  | .param c => decode s.cmd = .error c ∧ s.req = 0 ∧ s.avail = 0

/-- The engine-written registers tell one legal story about the word in `CMD`: no command yet, or a command that completed
`OK` with figures it can have, or one that raised an exception it can raise (spec/10_state.md R13, R15,
spec/60_exceptions.md R90, R94). -/
def State.resultsCoherent (s : State) : Prop :=
  (s.status = Status.none.word ∧ s.cmd = 0 ∧ s.olen = 0 ∧ s.oblen = 0 ∧ s.req = 0 ∧ s.avail = 0) ∨
  (s.status = Status.ok.word ∧ ∃ i, decode s.cmd = .ok i ∧ s.okFigures i) ∨
  (∃ e, s.status = (Status.raised e).word ∧ s.olen = 0 ∧ s.oblen = 0 ∧ s.raiseFigures e)

/-- Two states agree on all that a command reads (spec/10_state.md R14, R25, spec/20_memory.md R27): its operand registers,
and its input ranges. `EXTRACT` reads no sample of channel 3 or above. -/
def readsSame (i : Instr) (s t : State) : Prop :=
  match i with
  | .bytesToBits => t.plen = s.plen ∧ ∀ a < s.plen.toNat, t.readByte .pin a = s.readByte .pin a
  | .bitsToBytes => t.blen = s.blen ∧ ∀ a < s.blen.toNat, t.readBit .bin a = s.readBit .bin a
  | .embedK1 nch | .embedK2 nch =>
    t.plen = s.plen ∧ t.npix = s.npix ∧ (∀ a < s.plen.toNat, t.readByte .pin a = s.readByte .pin a) ∧
    ∀ a < s.npix.toNat * nch.toNat, t.readByte .xin a = s.readByte .xin a
  | .extractK1 nch | .extractK2 nch =>
    t.npix = s.npix ∧ ∀ p < s.npix.toNat, ∀ c < 3, t.sample nch.toNat p c = s.sample nch.toNat p c

/-- The output range a command writes when it completes `OK`, as a number of elements from index 0
(spec/10_state.md R21, spec/20_memory.md R27). -/
def byteWriteRange (i : Instr) (s t : State) (b : ByteBuf) : Nat :=
  match i, b with
  | .bitsToBytes, .pout => t.olen.toNat
  | .extractK1 _, .pout => t.olen.toNat
  | .extractK2 _, .pout => t.olen.toNat
  | .embedK1 nch, .xout => s.npix.toNat * nch.toNat
  | .embedK2 nch, .xout => s.npix.toNat * nch.toNat
  | _, _ => 0

/-- The same for bit buffers: only `BYTES_TO_BITS` writes one, `BOUT[0..8 PLEN)`. -/
def bitWriteRange (i : Instr) (s : State) (b : BitBuf) : Nat :=
  match i, b with
  | .bytesToBits, .bout => 8 * s.plen.toNat
  | _, _ => 0

/-- The ranges of a command that its operands fix (spec/20_memory.md R27) stay within what the platform implements
(spec/70_reset_and_hazards.md R114). `EXTRACT`'s range of `POUT` is not among them: the image decides it. -/
def rangesFit (pf : Config.Platform) (i : Instr) (s : State) : Prop :=
  match i with
  | .bytesToBits => s.plen.toNat ≤ pf.byteLimit .pin ∧ 8 * s.plen.toNat ≤ pf.bitLimit .bout
  | .bitsToBytes => s.blen.toNat ≤ pf.bitLimit .bin ∧ s.blen.toNat / 8 ≤ pf.byteLimit .pout
  | .embedK1 nch | .embedK2 nch =>
    s.plen.toNat ≤ pf.byteLimit .pin ∧ s.npix.toNat * nch.toNat ≤ pf.byteLimit .xin ∧
    s.npix.toNat * nch.toNat ≤ pf.byteLimit .xout
  | .extractK1 nch | .extractK2 nch => ∀ p < s.npix.toNat, ∀ c < 3, p * nch.toNat + c < pf.byteLimit .xin

/-- A host action stays inside the index ranges of the buffers (spec/10_state.md R19). -/
def HostOp.inRange : HostOp → Prop
  | .writeReg _ _ => True
  | .readReg _ => True
  | .writeByte b i _ => i < b.size
  | .writeBit b i _ => i < b.size
  | .readByte b i => i < b.size
  | .readBit b i => i < b.size
  | .copyByte dst src i => i < dst.size ∧ i < src.size
  | .copyBit dst src i => i < dst.size ∧ i < src.size
  | .reset => True

/-- A run of the host's actions that never stops the machine: after any number of steps there is a next state. -/
def State.runsSafely (s : State) : Prop := ∀ n, ∃ t, Sys2Proof.core.run n s = .next t

end Sys2Proof.Machine
end

