-- ==== Sys2Proof/Certificates/Slice0/Obligations.lean ====
section
/-! DEFINITION. The statements about the machine. Each docstring names the rule of spec/ it formalises. Where a clause rests on
an inference the spec marks as its own ("[derived: ...]") or on a choice of the model (a log entry), the docstring says so. -/

open Sys2Proof Sys2Proof.Machine

/-! ## Encodings -/

/-- 30_encoding.md R44: the decode procedure, by the opcode table. A word decodes to an instruction exactly when it belongs to
the instruction's row (mask, match, constraint), with NCH taken from bits 6:4; every other word is rejected, RSV_SET before
BAD_K before BAD_NCH; the counts are those of the rule. -/
def Obligations.DecodeFollowsOpcodeTable : Prop :=
  (∀ w i, decode w = .ok i ↔ i.row.holds w = true ∧ ∀ n, i.nch? = some n → n = cmdNch w) ∧
  (∀ w : Byte, decode w = .error .rsvSet ↔ w.getLsbD 7 = true) ∧
  (∀ w : Byte, decode w = .error .badK ↔
    w.getLsbD 7 = false ∧ w.getLsbD 1 = true ∧ (w.getLsbD 3 = w.getLsbD 2)) ∧
  (∀ w : Byte, decode w = .error .badNch ↔
    w.getLsbD 7 = false ∧ w.getLsbD 1 = true ∧ w.getLsbD 3 ≠ w.getLsbD 2 ∧ w.toNat / 16 < 3) ∧
  (∀ c n, (c, n) ∈ [(ParamCause.rsvSet, 128), (.badK, 32), (.badNch, 12)] →
    (List.range 256).countP (fun w => decode (BitVec.ofNat 8 w) = .error c) = n) ∧
  (List.range 256).countP (fun w => decode (BitVec.ofNat 8 w) = .ok .bytesToBits) = 32 ∧
  (List.range 256).countP (fun w => decode (BitVec.ofNat 8 w) = .ok .bitsToBytes) = 32 ∧
  (∀ i ∈ [Instr.embedK1 3, .embedK2 3, .extractK1 3, .extractK2 3],
    (List.range 256).countP (fun w => i.row.holds (BitVec.ofNat 8 w)) = 5)

/-- 30_encoding.md R37, R39, R41, R44: every well-formed instruction, at every NCH the encoding admits, decodes from the word
it encodes to; and a word that decodes to an instruction is that instruction's word, up to the K and NCH bits that the Bit
Codec commands ignore (which the encoder makes 0: the canonical words, log 10). -/
def Obligations.EncodeAndDecodeAgree : Prop :=
  (∀ i : Instr, i.wellFormed = true → decode (encode i) = .ok i) ∧
  (∀ w i, decode w = .ok i → i.wellFormed = true ∧ ∀ n, i.nch? = some n → encode i = w) ∧
  (∀ w i, decode w = .ok i → i.nch? = none → encode i = w &&& 0x83#8)

/-- 95_test_vectors.md section 4: some command words, each written out as RSV NCH K OP, and what they spell. -/
def Obligations.DecodedCommandWords : Prop :=
  decode 0b0_111_11_00#8 = .ok .bytesToBits ∧ decode 0b0_111_11_01#8 = .ok .bitsToBytes ∧
  decode 0b0_011_01_10#8 = .ok (.embedK1 3) ∧ decode 0b0_100_10_10#8 = .ok (.embedK2 4) ∧
  decode 0b0_011_01_11#8 = .ok (.extractK1 3) ∧ decode 0b0_111_10_11#8 = .ok (.extractK2 7) ∧
  decode 0b1_000_00_00#8 = .error .rsvSet ∧ decode 0b0_000_00_10#8 = .error .badK ∧
  decode 0b0_011_11_10#8 = .error .badK ∧ decode 0b0_010_01_11#8 = .error .badNch

/-- 30_encoding.md R43: `BYTES_TO_BITS` and `BITS_TO_BYTES` ignore K and NCH: any value of those five bits issues the same
command, and none raises. -/
def Obligations.BitCodecIgnoresKAndNch : Prop :=
  ∀ (nch : BitVec 3) (k : BitVec 2) (s : State),
    decode (commandWord 0 nch k 0b00) = .ok .bytesToBits ∧ decode (commandWord 0 nch k 0b01) = .ok .bitsToBytes ∧
    issue (commandWord 0 nch k 0b00) s = exec .bytesToBits { s with cmd := commandWord 0 nch k 0b00 } ∧
    issue (commandWord 0 nch k 0b01) s = exec .bitsToBytes { s with cmd := commandWord 0 nch k 0b01 }

/-! ## Reset -/

/-- 70_reset_and_hazards.md R106: after a reset every register is 0 and no command has been issued (`STATUS.CODE` = NONE);
`STATUS.CODE` = NONE occurs only between a reset and the first `CMD` write: no step brings it about but a reset, and no
`CMD` write leaves it. What the host still has to do is the host's own and stays, which is the model's choice (log 14). -/
def Obligations.ResetValuesOfEveryRegister : Prop :=
  (∀ r, State.reset.readReg r = 0) ∧ statusCode State.reset.status = 0 ∧
  (∀ s, ∃ t, hostAct Config.platform .reset s = .next t ∧ (∀ r, t.readReg r = 0) ∧ t.host = s.host) ∧
  (∀ s t, step s = .next t → statusCode t.status = 0 →
    statusCode s.status = 0 ∨ s.host.head? = some .reset) ∧
  (∀ w s t, issue w s = .next t → statusCode t.status ≠ 0)

/-- 70_reset_and_hazards.md section 1 ("The content of all six buffers after reset is unspecified"), in the model's form (log
3): after a reset every element of every buffer reads as the free value of the next epoch, of which nothing can be proved. -/
def Obligations.ResetLeavesBuffersUnspecified : Prop :=
  ∀ s, ∃ t, hostAct Config.platform .reset s = .next t ∧
    (∀ b i, t.readByte b i = Config.unwrittenByte (s.epoch + 1) b i) ∧
    (∀ b i, t.readBit b i = Config.unwrittenBit (s.epoch + 1) b i)

/-! ## The Bit Codec -/

/-- 40_bit_codec.md R48: SER is the concatenation of the bytes' SER8, its length 8 times the input's, and index 8i + j holds
bit 7 - j of byte i; the empty sequence gives the empty bitstream; the rule's example. -/
def Obligations.SerializePlacesEveryBit : Prop :=
  (∀ D : List Byte, (ser D).length = 8 * D.length ∧
    (∀ i j, (h : i < D.length) → j < 8 → (ser D)[8 * i + j]? = some (D[i].getLsbD (7 - j)))) ∧
  (∀ (b : Byte) (D : List Byte), ser (b :: D) = ser8 b ++ ser D) ∧ ser [] = [] ∧
  ser [0x01#8, 0x02#8] =
    [false, false, false, false, false, false, false, true, false, false, false, false, false, false, true, false]

/-- 40_bit_codec.md R47, R49: SER8 gives 8 bits, index j holding bit 7 - j; DES8 is the sum of G[j] 2^(7 - j), that is bit
7 - j is G[j]; the two are inverse in both directions. -/
def Obligations.ByteSerializersAreInverse : Prop :=
  (∀ b : Byte, (ser8 b).length = 8 ∧ (∀ j < 8, (ser8 b)[j]? = some (b.getLsbD (7 - j))) ∧ des8 (ser8 b) = b) ∧
  (∀ G : Bits, G.length = 8 → ser8 (des8 G) = G ∧ (∀ j < 8, G[j]? = some ((des8 G).getLsbD (7 - j))) ∧
    (des8 G).toNat = ∑ j ∈ Finset.range 8, (G.getD j false).toNat * 2 ^ (7 - j)) ∧
  ser8 0x00#8 = List.replicate 8 false ∧ ser8 0xFF#8 = List.replicate 8 true ∧
  ser8 0x80#8 = true :: List.replicate 7 false ∧ ser8 0x01#8 = List.replicate 7 false ++ [true] ∧
  ser8 0x41#8 = [false, true, false, false, false, false, false, true] ∧
  des8 [false, false, false, false, false, false, true, false] = 0x02#8

/-- 40_bit_codec.md R50: with r = len mod 8: when r = 0 both policies give the same floor(len / 8) bytes, each DES8 of its 8-bit
group, and SER gives the bitstream back; when r is not 0, STRICT raises FormatError(UNALIGNED) and LENIENT gives the whole
groups and drops the rest. -/
def Obligations.DeserializeUnderBothPolicies : Prop :=
  ∀ B : Bits,
    (∀ p, B.length % 8 = 0 ∨ p = .lenient →
      ∃ D, des p B = .ok D ∧ D.length = B.length / 8 ∧
        (∀ i < B.length / 8, D[i]? = some (des8 (slice B (8 * i) (8 * i + 8)))) ∧
        (B.length % 8 = 0 → ser D = B ∧ des .strict B = des .lenient B)) ∧
    (B.length % 8 ≠ 0 → des .strict B = .error .unaligned)

/-- 40_bit_codec.md section 1, the round-trip law ("`bits_to_bytes(bytes_to_bits(x)) == x` for all byte sequences `x`") and its
converses, which the spec derives: for an aligned bitstream under both policies, and for any bitstream, up to its whole
groups, under LENIENT. -/
def Obligations.BitCodecRoundTrip : Prop :=
  (∀ p x, des p (ser x) = .ok x) ∧
  (∀ p B, B.length % 8 = 0 → ∃ D, des p B = .ok D ∧ ser D = B) ∧
  (∀ B, ∃ D, des .lenient B = .ok D ∧ ser D = slice B 0 (8 * (B.length / 8)))

/-- 40_bit_codec.md R52: from every state `BYTES_TO_BITS` completes `OK`: `BOUT[8i + j]` is bit 7 - j of `PIN[i]` for i below
`PLEN`, `BOUT` above is as before, `OBLEN` = 8 PLEN, the other result registers 0, every other buffer and register as
before. Any word with OP = 00 issues it when RSV is 0, and takes ParamError(RSV_SET) when RSV is 1. -/
def Obligations.BytesToBitsSerializesPayload : Prop :=
  (∀ s, ∃ t, exec .bytesToBits s = .next t ∧ t.reports .ok 0 (8 * s.plen.toNat) 0 0 ∧
    (∀ i < s.plen.toNat, ∀ j < 8, t.readBit .bout (8 * i + j) = (s.readByte .pin i).getLsbD (7 - j)) ∧
    (∀ a, 8 * s.plen.toNat ≤ a → t.readBit .bout a = s.readBit .bout a) ∧
    s.hostSideKept t ∧ s.inputsKept t ∧ s.byteBufKept t .pout ∧ s.byteBufKept t .xout) ∧
  (∀ w s, cmdOp w = 0b00#2 →
    (cmdRsv w = 0#1 → issue w s = exec .bytesToBits { s with cmd := w }) ∧
    (cmdRsv w = 1#1 → takesException { s with cmd := w } (issue w s) (.param .rsvSet) 0 0))

/-- 40_bit_codec.md R53: `BITS_TO_BYTES` with `BLEN` a multiple of 8, or under LENIENT, completes `OK` from every state: bit
7 - j of `POUT[i]` is `BIN[8i + j]` for i below floor(BLEN / 8), `POUT` above is as before, `OLEN` = floor(BLEN / 8), the other
result registers 0, every other buffer and register as before; with another `BLEN` under STRICT (this hardware) it takes
FormatError(UNALIGNED) with all figures 0. Any word with OP = 01 issues it when RSV is 0, and takes ParamError(RSV_SET) when
RSV is 1. -/
def Obligations.BitsToBytesDeserializesStream : Prop :=
  (∀ p s, s.blen.toNat % 8 = 0 ∨ p = .lenient →
    ∃ t, commandOn (Config.platformWith p) .bitsToBytes s = .next t ∧
      (s.blen.toNat % 8 = 0 → exec .bitsToBytes s = .next t) ∧
      t.reports .ok (s.blen.toNat / 8) 0 0 0 ∧
      (∀ i < s.blen.toNat / 8, ∀ j < 8, (t.readByte .pout i).getLsbD (7 - j) = s.readBit .bin (8 * i + j)) ∧
      (∀ a, s.blen.toNat / 8 ≤ a → t.readByte .pout a = s.readByte .pout a) ∧
      s.hostSideKept t ∧ s.inputsKept t ∧ s.bitBufKept t .bout ∧ s.byteBufKept t .xout) ∧
  (∀ s, s.blen.toNat % 8 ≠ 0 → takesException s (exec .bitsToBytes s) (.format .unaligned) 0 0) ∧
  (∀ w s, cmdOp w = 0b01#2 →
    (cmdRsv w = 0#1 → issue w s = exec .bitsToBytes { s with cmd := w }) ∧
    (cmdRsv w = 1#1 → takesException { s with cmd := w } (issue w s) (.param .rsvSet) 0 0))

/-- 40_bit_codec.md section 2 ("The two commands compose to the identity", which the spec derives): after `BYTES_TO_BITS`, a
machine whose `BLEN` is that `OBLEN` and whose `BIN` holds that `BOUT[0..OBLEN)` completes `BITS_TO_BYTES` `OK` with the
payload in `POUT`, under both policies. -/
def Obligations.BitCodecCommandsCompose : Prop :=
  ∀ p s, ∃ t, commandOn (Config.platformWith p) .bytesToBits s = .next t ∧
    ∀ u, u.blen = t.oblen → (∀ a < t.oblen.toNat, u.readBit .bin a = t.readBit .bout a) →
      ∃ v, commandOn (Config.platformWith p) .bitsToBytes u = .next v ∧ v.status = Status.ok.word ∧ v.olen = s.plen ∧
        ∀ i < s.plen.toNat, v.readByte .pout i = s.readByte .pin i

/-! ## The length codec and the frame -/

/-- 41_length_codec.md R55: ENC32(L) has 32 bits, index j holding L's bit 31 - j; it is SER of the four bytes of L, most
significant first; the rule's corner cases and examples. -/
def Obligations.HeaderIsBigEndian : Prop :=
  (∀ L : BitVec 32, (enc32 L).length = 32 ∧ (∀ j < 32, (enc32 L)[j]? = some (L.getLsbD (31 - j))) ∧
    enc32 L = ser (bigEndianU32 L)) ∧
  enc32 0#32 = List.replicate 32 false ∧ enc32 (BitVec.allOnes 32) = List.replicate 32 true ∧
  enc32 0x80000000#32 = true :: List.replicate 31 false ∧ enc32 1#32 = List.replicate 31 false ++ [true] ∧
  enc32 8#32 = List.replicate 28 false ++ [true, false, false, false] ∧
  enc32 0x01020304#32 = ser [0x01#8, 0x02#8, 0x03#8, 0x04#8]

/-- 41_length_codec.md, DEC32 ("decode as a big-endian unsigned integer") and that it and ENC32 are inverse, which the spec
derives. -/
def Obligations.HeaderCodersAreInverse : Prop :=
  (∀ H : Bits, H.length = 32 →
    dec32 H = ∑ j ∈ Finset.range 32, (H.getD j false).toNat * 2 ^ (31 - j) ∧ dec32 H < 2 ^ 32 ∧
    enc32 (BitVec.ofNat 32 (dec32 H)) = H) ∧
  (∀ L : BitVec 32, dec32 (enc32 L) = L.toNat)

/-- 41_length_codec.md R57: for a payload whose bit length fits the header (`PLEN` is 29 bits wide), the frame has 32 + 8n bits;
indices 0 to 31 are ENC32(8n), and index 32 + 8i + j holds bit 7 - j of payload byte i; the empty payload has the frame of 32
zero bits; the rule's example. -/
def Obligations.FrameLayout : Prop :=
  (∀ D : List Byte, D.length < 2 ^ 29 → (frame D).length = 32 + 8 * D.length ∧
    slice (frame D) 0 32 = enc32 (BitVec.ofNat 32 (8 * D.length)) ∧ dec32 (slice (frame D) 0 32) = 8 * D.length ∧
    ∀ i j, (h : i < D.length) → j < 8 → (frame D)[32 + 8 * i + j]? = some (D[i].getLsbD (7 - j))) ∧
  frame [] = List.replicate 32 false ∧
  frame [0x41#8] = List.replicate 28 false ++ [true, false, false, false] ++
    [false, true, false, false, false, false, false, true]

/-- 41_length_codec.md, taking a frame apart, which the spec derives: whatever stream follows the frame, the declared length is
the payload's and the declared payload bits deserialise to the payload, under both policies. -/
def Obligations.FrameTakenApart : Prop :=
  ∀ p (D : List Byte) (X : Bits), D.length < 2 ^ 29 →
    let S := frame D ++ X
    let L := dec32 (slice S 0 32)
    L = 8 * D.length ∧ des p (slice S 32 (32 + L)) = .ok D

/-! ## The LSB distributor -/

/-- 42_lsb_distributor.md R60, R61: LOWMASK(k) = 2^k - 1 and MASK(k) is its complement in 8 bits, at both k. -/
def Obligations.MasksSplitTheSample : Prop :=
  lowmask .k1 = 0x01#8 ∧ lowmask .k2 = 0x03#8 ∧ mask .k1 = 0xFE#8 ∧ mask .k2 = 0xFC#8 ∧
  ∀ k, (lowmask k).toNat = 2 ^ k.bits - 1 ∧ mask k = 0xFF#8 ^^^ lowmask k ∧
    mask k &&& lowmask k = 0x00#8 ∧ mask k ||| lowmask k = 0xFF#8

/-- 42_lsb_distributor.md, GROUP and UNGROUP: the earlier stream bit is the more significant (an order the spec derives for
GROUP), no group exceeds LOWMASK(k), and the two are inverse. -/
def Obligations.GroupAndUngroupAreInverse : Prop :=
  (∀ k (F : Bits) i, i + k.bits ≤ F.length →
    group F i k = ∑ j ∈ Finset.range k.bits, (F.getD (i + j) false).toNat * 2 ^ (k.bits - 1 - j) ∧
    group F i k ≤ (lowmask k).toNat ∧ ungroup (group F i k) k = slice F i (i + k.bits)) ∧
  (∀ k g, g ≤ (lowmask k).toNat → (ungroup g k).length = k.bits ∧
    (∀ j < k.bits, (ungroup g k)[j]? = some (g.testBit (k.bits - 1 - j))) ∧ group (ungroup g k) 0 k = g)

/-- 42_lsb_distributor.md, INS and EXT: the low k bits are the group's, bits 7 down to k the sample's own; and the laws the spec
derives: what was inserted is extracted, the image's own bits are kept, a second embedding replaces the first, the numeric
change is at most LOWMASK(k), and across widths the pair does not invert. -/
def Obligations.InsertAndExtractLaws : Prop :=
  (∀ k (x : Sample) g, g ≤ (lowmask k).toNat →
    (∀ i < 8, (ins x g k).getLsbD i = if i < k.bits then g.testBit i else x.getLsbD i) ∧
    ext (ins x g k) k = g ∧ ins x g k &&& mask k = x &&& mask k ∧
    (∀ h ≤ (lowmask k).toNat, ins (ins x h k) g k = ins x g k) ∧ ins x (ext x k) k = x ∧
    (ins x g k).toNat ≤ x.toNat + (lowmask k).toNat ∧ x.toNat ≤ (ins x g k).toNat + (lowmask k).toNat) ∧
  (∀ k (x y : Sample), (∀ i < k.bits, x.getLsbD i = y.getLsbD i) → ext x k = ext y k) ∧
  (∀ x : Sample, ∀ g ≤ 1, ext (ins x g .k1) .k2 = (x &&& 0x02#8).toNat + g) ∧
  (∀ x : Sample, ∀ g ≤ 3, ext (ins x g .k2) .k1 = g % 2)

/-! ## The channel multiplexer -/

/-- 43_channel_mux.md R68 to R70: carrier number and (pixel, channel) determine each other for the three carrying channels;
carrier q stands at floor(q / 3) NCH + q mod 3; carriers are visited at ascending sample indices; with NCH = 3 the index is q
itself. -/
def Obligations.CarrierNumbering : Prop :=
  (∀ p c, c < 3 → carrierPixel (carrier p c) = p ∧ carrierChannel (carrier p c) = c) ∧
  (∀ q, carrier (carrierPixel q) (carrierChannel q) = q ∧ carrierChannel q < 3) ∧
  (∀ nch q, carrierAddr nch q = q / 3 * nch + q % 3) ∧
  (∀ nch q q', 3 ≤ nch → q < q' → carrierAddr nch q < carrierAddr nch q') ∧
  (∀ q, carrierAddr 3 q = q)

/-- 45_extract.md R83: the collected stream has T = NPIX × 3 × k bits; the k bits of carrier q are the group of its sample's low
bits, and index i is bit k - 1 - (i mod k) of the sample of carrier floor(i / k). -/
def Obligations.CollectedStreamClosedForm : Prop :=
  ∀ (k : LsbWidth) (nch : Nat) (s : State),
    (s.collected k nch).length = s.npix.toNat * 3 * k.bits ∧
    (∀ q < 3 * s.npix.toNat, slice (s.collected k nch) (q * k.bits) (q * k.bits + k.bits) =
      ungroup (ext (s.readByte .xin (q / 3 * nch + q % 3)) k) k) ∧
    (∀ i < s.npix.toNat * 3 * k.bits, (s.collected k nch)[i]? =
      some ((s.readByte .xin (i / k.bits / 3 * nch + i / k.bits % 3)).getLsbD (k.bits - 1 - i % k.bits)))

/-! ## EMBED -/

/-- 44_embed.md R75 (what a successful `EMBED` writes and reports), in the closed form the spec derives from it: from every state
whose payload fits, `EMBED` completes `OK` at both k and every legal NCH; for every pixel p and channel c the output sample is
INS(XIN, GROUP(F, qk, k), k) when c ≤ 2 and q = 3p + c is below required / k, and the input sample otherwise; `XOUT` beyond
NPIX × NCH, every other buffer, `CMD` and the operand registers are as before; `REQ` and `AVAIL` hold the two figures. -/
def Obligations.EmbedWritesTheFrame : Prop :=
  ∀ k nch s, nchLegal nch = true → 32 + 8 * s.plen.toNat ≤ s.npix.toNat * 3 * k.bits →
    ∃ t, exec (.embed k nch) s = .next t ∧
      t.reports .ok 0 0 (32 + 8 * s.plen.toNat) (s.npix.toNat * 3 * k.bits) ∧
      (∀ p < s.npix.toNat, ∀ c < nch.toNat,
        t.readByte .xout (p * nch.toNat + c) =
          if c ≤ 2 ∧ 3 * p + c < (32 + 8 * s.plen.toNat) / k.bits then
            ins (s.readByte .xin (p * nch.toNat + c)) (group (frame s.payload) ((3 * p + c) * k.bits) k) k
          else s.readByte .xin (p * nch.toNat + c)) ∧
      (∀ a, s.npix.toNat * nch.toNat ≤ a → t.readByte .xout a = s.readByte .xout a) ∧
      s.hostSideKept t ∧ s.inputsKept t ∧ s.byteBufKept t .pout ∧ s.bitBufKept t .bout

/-- 44_embed.md R77: `EMBED` embeds if and only if required ≤ available; otherwise it takes CapacityError with both figures and
writes nothing. The corner cases: no pixels always raises; the empty payload needs at least 11 pixels at k = 1 and 6 at
k = 2. -/
def Obligations.EmbedCapacityCheck : Prop :=
  (∀ k nch s, nchLegal nch = true →
    ((∃ t, exec (.embed k nch) s = .next t ∧ t.status = Status.ok.word) ↔
      32 + 8 * s.plen.toNat ≤ s.npix.toNat * 3 * k.bits) ∧
    (32 + 8 * s.plen.toNat > s.npix.toNat * 3 * k.bits →
      takesException s (exec (.embed k nch) s) .capacity (32 + 8 * s.plen.toNat) (s.npix.toNat * 3 * k.bits))) ∧
  (∀ k nch s, nchLegal nch = true → s.npix = 0 →
    takesException s (exec (.embed k nch) s) .capacity (32 + 8 * s.plen.toNat) 0) ∧
  (∀ nch s, nchLegal nch = true → s.plen = 0 →
    ((∃ t, exec (.embedK1 nch) s = .next t ∧ t.status = Status.ok.word) ↔ 11 ≤ s.npix.toNat) ∧
    ((∃ t, exec (.embedK2 nch) s = .next t ∧ t.status = Status.ok.word) ↔ 6 ≤ s.npix.toNat))

/-- 44_embed.md section on what `EMBED` preserves, which the spec derives: when it completes `OK`, every sample of channel 3 or
above, every carrier numbered required / k or above, and bits 7 down to k of every carrier below that, are the input's. -/
def Obligations.EmbedPreservesTheImage : Prop :=
  ∀ k nch s t, exec (.embed k nch) s = .next t → t.status = Status.ok.word →
    ∀ p < s.npix.toNat, ∀ c < nch.toNat,
      (3 ≤ c → t.readByte .xout (p * nch.toNat + c) = s.readByte .xin (p * nch.toNat + c)) ∧
      ((32 + 8 * s.plen.toNat) / k.bits ≤ 3 * p + c →
        t.readByte .xout (p * nch.toNat + c) = s.readByte .xin (p * nch.toNat + c)) ∧
      (∀ i, k.bits ≤ i →
        (t.readByte .xout (p * nch.toNat + c)).getLsbD i = (s.readByte .xin (p * nch.toNat + c)).getLsbD i)

/-- 43_channel_mux.md, the map between stream indices and carrier bits (which the spec derives), on embedding: when `EMBED`
completes `OK`, frame bit i stands in carrier floor(i / k), at pixel floor(q / 3), channel q mod 3, in sample bit
k - 1 - (i mod k). -/
def Obligations.EveryFrameBitStandsInItsCarrier : Prop :=
  ∀ k nch s t, exec (.embed k nch) s = .next t → t.status = Status.ok.word →
    ∀ i < 32 + 8 * s.plen.toNat,
      (frame s.payload)[i]? =
        some ((t.readByte .xout (i / k.bits / 3 * nch.toNat + i / k.bits % 3)).getLsbD (k.bits - 1 - i % k.bits))

/-- 44_embed.md, "Pixels exhausted before all bits are consumed cannot occur" (its proof is the spec's own derivation): in a walk
over enough pixels the cursor ends exactly at the frame's end. -/
def Obligations.WalkConsumesTheWholeFrame : Prop :=
  ∀ (k : LsbWidth) (nch : BitVec 3) (s : State), nchLegal nch = true → 32 + 8 * s.plen.toNat ≤ s.npix.toNat * 3 * k.bits →
    (embedWalk k nch.toNat (frame s.payload) (s.readByte .xin) s.npix.toNat s.xout).cur = (frame s.payload).length

/-- 44_embed.md, embedding twice (which the spec derives): with the output of an `EMBED` fed back as `XIN`, and the same payload,
k, NCH and pixel count, `EMBED` completes `OK` and its output equals its input. -/
def Obligations.EmbeddingAgainChangesNothing : Prop :=
  ∀ k nch s t, exec (.embed k nch) s = .next t → t.status = Status.ok.word →
    ∀ u, u.plen = s.plen → u.npix = s.npix → (∀ a < s.plen.toNat, u.readByte .pin a = s.readByte .pin a) →
      (∀ a < s.npix.toNat * nch.toNat, u.readByte .xin a = t.readByte .xout a) →
      ∃ v, exec (.embed k nch) u = .next v ∧ v.status = Status.ok.word ∧
        ∀ a < s.npix.toNat * nch.toNat, v.readByte .xout a = u.readByte .xin a

/-- 30_encoding.md R41 at `exec`: an `EMBED` or `EXTRACT` whose NCH is below 3, which no word decodes to, takes
ParamError(BAD_NCH) with all figures 0 (the model's choice for such a term, log 9). -/
def Obligations.IllegalChannelCountIsParamError : Prop :=
  ∀ k (nch : BitVec 3) s, nch.toNat < 3 →
    takesException s (exec (.embed k nch) s) (.param .badNch) 0 0 ∧
    takesException s (exec (.extract k nch) s) (.param .badNch) 0 0

/-! ## EXTRACT -/

/-- 45_extract.md R85: when the collected stream S of T bits declares L payload bits with 32 + L ≤ T and L mod 8 = 0, `EXTRACT`
completes `OK` with the same next state under both policies, at both k and every legal NCH: bit 7 - j of `POUT[i]` is
S[32 + 8i + j] for i below L / 8, `OLEN` = L / 8, `REQ` = 32 + L, `AVAIL` = T; `POUT` above, every other buffer, `CMD` and the
operand registers are as before (with L = 0 nothing is written). -/
def Obligations.ExtractRecoversTheDeclaredPayload : Prop :=
  ∀ k nch s, nchLegal nch = true →
    let S := s.collected k nch.toNat
    let L := dec32 (slice S 0 32)
    32 ≤ s.npix.toNat * 3 * k.bits → 32 + L ≤ s.npix.toNat * 3 * k.bits → L % 8 = 0 →
    ∃ t, exec (.extract k nch) s = .next t ∧ commandOn (Config.platformWith .lenient) (.extract k nch) s = .next t ∧
      t.reports .ok (L / 8) 0 (32 + L) (s.npix.toNat * 3 * k.bits) ∧
      (∀ i < L / 8, ∀ j < 8, S[32 + 8 * i + j]? = some ((t.readByte .pout i).getLsbD (7 - j))) ∧
      (∀ a, L / 8 ≤ a → t.readByte .pout a = s.readByte .pout a) ∧
      s.hostSideKept t ∧ s.inputsKept t ∧ s.bitBufKept t .bout ∧ s.byteBufKept t .xout

/-- 45_extract.md R84: with fewer than 32 collected bits (NPIX ≤ 10 at k = 1, NPIX ≤ 5 at k = 2) `EXTRACT` takes
FormatError(HEADER_SHORT) under both policies, `REQ` = 32 and `AVAIL` = T; the corner case NPIX = 0. -/
def Obligations.ExtractNeedsAHeader : Prop :=
  (∀ p k nch s, nchLegal nch = true → s.npix.toNat * 3 * k.bits < 32 →
    takesException s (commandOn (Config.platformWith p) (.extract k nch) s) (.format .headerShort) 32
      (s.npix.toNat * 3 * k.bits) ∧
    takesException s (exec (.extract k nch) s) (.format .headerShort) 32 (s.npix.toNat * 3 * k.bits)) ∧
  (∀ n, (n * 3 * LsbWidth.k1.bits < 32 ↔ n ≤ 10) ∧ (n * 3 * LsbWidth.k2.bits < 32 ↔ n ≤ 5)) ∧
  (∀ p k nch s, nchLegal nch = true → s.npix = 0 →
    takesException s (commandOn (Config.platformWith p) (.extract k nch) s) (.format .headerShort) 32 0)

/-- 45_extract.md R86, STRICT, this hardware: a declared length that runs past the collected stream takes
FormatError(BODY_SHORT), aligned or not; one that fits but is not a multiple of 8 takes FormatError(UNALIGNED); both with
`REQ` = 32 + L and `AVAIL` = T; 32 + L = T is not an error. -/
def Obligations.ExtractRefusesMalformedStreams : Prop :=
  ∀ k nch s, nchLegal nch = true → 32 ≤ s.npix.toNat * 3 * k.bits →
    let L := dec32 (slice (s.collected k nch.toNat) 0 32)
    let T := s.npix.toNat * 3 * k.bits
    (32 + L > T → takesException s (exec (.extract k nch) s) (.format .bodyShort) (32 + L) T) ∧
    (32 + L ≤ T → L % 8 ≠ 0 → takesException s (exec (.extract k nch) s) (.format .unaligned) (32 + L) T) ∧
    (32 + L = T → L % 8 = 0 → ∃ t, exec (.extract k nch) s = .next t ∧ t.status = Status.ok.word)

/-- 45_extract.md R87, LENIENT, the reference behaviour (not this hardware's): with a header, `EXTRACT` always completes `OK`; the
payload bits are S[32 .. min(32 + L, T)), trailing bits that fill no byte are dropped, `REQ` = 32 + L and `AVAIL` = T. -/
def Obligations.LenientExtractTruncates : Prop :=
  ∀ k nch s, nchLegal nch = true → 32 ≤ s.npix.toNat * 3 * k.bits →
    let S := s.collected k nch.toNat
    let L := dec32 (slice S 0 32)
    let T := s.npix.toNat * 3 * k.bits
    let n := (min (32 + L) T - 32) / 8
    ∃ t, commandOn (Config.platformWith .lenient) (.extract k nch) s = .next t ∧ t.reports .ok n 0 (32 + L) T ∧
      (∀ i < n, ∀ j < 8, S[32 + 8 * i + j]? = some ((t.readByte .pout i).getLsbD (7 - j))) ∧
      (∀ a, n ≤ a → t.readByte .pout a = s.readByte .pout a) ∧
      s.hostSideKept t ∧ s.inputsKept t ∧ s.bitBufKept t .bout ∧ s.byteBufKept t .xout

/-- 45_extract.md R88: for every payload, k, NCH and pixel sequence with enough capacity, `EMBED` completes, and `EXTRACT` on any
machine that holds that output as `XIN` with the same NPIX, NCH and k completes `OK` with `OLEN` = n and the payload in `POUT`,
under both policies. -/
def Obligations.EmbedThenExtractRecoversThePayload : Prop :=
  ∀ p k nch s, nchLegal nch = true → 32 + 8 * s.plen.toNat ≤ s.npix.toNat * 3 * k.bits →
    ∃ t, commandOn (Config.platformWith p) (.embed k nch) s = .next t ∧ t.status = Status.ok.word ∧
      ∀ u, u.npix = s.npix → (∀ a < s.npix.toNat * nch.toNat, u.readByte .xin a = t.readByte .xout a) →
        ∃ v, commandOn (Config.platformWith p) (.extract k nch) u = .next v ∧ v.status = Status.ok.word ∧
          v.olen = s.plen ∧ ∀ i < s.plen.toNat, v.readByte .pout i = s.readByte .pin i

/-- 70_reset_and_hazards.md section 3 on lossless carriers (the part the spec derives): what `EXTRACT` recovers depends only on
the low k bits of the first required / k carriers, rounded up. When it completes `OK` on `s`, it completes `OK` with the same bytes on any
state with the same pixel count whose carriers numbered below (32 + L) / k, rounded up, have the same low k bits. -/
def Obligations.ExtractDependsOnLowBitsOnly : Prop :=
  ∀ k nch s t, exec (.extract k nch) s = .next t → t.status = Status.ok.word →
    ∀ u, u.npix = s.npix →
      (∀ q, q * k.bits < t.req.toNat → ∀ i < k.bits,
        (u.readByte .xin (carrierAddr nch.toNat q)).getLsbD i = (s.readByte .xin (carrierAddr nch.toNat q)).getLsbD i) →
      ∃ v, exec (.extract k nch) u = .next v ∧ t.sameResults v ∧
        ∀ a < t.olen.toNat, v.readByte .pout a = t.readByte .pout a

/-- 45_extract.md, the corner case of L = 0: an image whose first 32 carrier bits are all zero yields an empty payload with `OK`
and no write, whatever the samples' other bits are (an all-black image for one). -/
def Obligations.AllBlackImageIsAnEmptyPayload : Prop :=
  ∀ k nch s, nchLegal nch = true → 32 ≤ s.npix.toNat * 3 * k.bits →
    (∀ q, q * k.bits < 32 → ∀ i < k.bits, (s.readByte .xin (carrierAddr nch.toNat q)).getLsbD i = false) →
    ∃ t, exec (.extract k nch) s = .next t ∧ t.reports .ok 0 0 32 (s.npix.toNat * 3 * k.bits) ∧
      s.hostSideKept t ∧ s.inputsKept t ∧ s.outputsKept t

/-! ## Exceptions -/

/-- 30_encoding.md R42 and 60_exceptions.md R93: a word with RSV = 1 raises ParamError(RSV_SET) whatever its other bits; an `EMBED`
or `EXTRACT` word with a reserved K raises BAD_K, and one with a legal K and NCH below 3 raises BAD_NCH. Each takes the exception
with all four result registers 0, from every state, and reads no operand and no buffer: the outcome's results are the same
whatever they hold. -/
def Obligations.ReservedWordsRaiseParamError : Prop :=
  ∀ (w : Byte) s,
    (w.getLsbD 7 = true → takesException { s with cmd := w } (issue w s) (.param .rsvSet) 0 0) ∧
    (w.getLsbD 7 = false → w.getLsbD 1 = true → w.getLsbD 3 = w.getLsbD 2 →
      takesException { s with cmd := w } (issue w s) (.param .badK) 0 0) ∧
    (w.getLsbD 7 = false → w.getLsbD 1 = true → w.getLsbD 3 ≠ w.getLsbD 2 → w.toNat / 16 < 3 →
      takesException { s with cmd := w } (issue w s) (.param .badNch) 0 0)

/-- 60_exceptions.md R90, R94: each row of the table of exceptions: the command, the condition, the code and cause, the recorded
figures, and that taking it writes no buffer element, leaves `CMD`, the operand registers and the inputs as they are and makes
`OLEN` and `OBLEN` 0; a command word that is in no row completes `OK`; and under LENIENT the rows that say "`STRICT` only" do
not raise, while the other rows raise the same. -/
def Obligations.ExceptionsAreTakenAsTheTableSays : Prop :=
  ∀ (w : Byte) s,
    let s' : State := { s with cmd := w }
    let T (k : LsbWidth) := s.npix.toNat * 3 * k.bits
    let L (k : LsbWidth) (nch : BitVec 3) := dec32 (slice (s.collected k nch.toNat) 0 32)
    (∀ k nch, decode w = .ok (.embed k nch) →
      if 32 + 8 * s.plen.toNat > T k then takesException s' (issue w s) .capacity (32 + 8 * s.plen.toNat) (T k)
      else ∃ t, issue w s = .next t ∧ t.status = Status.ok.word) ∧
    (∀ k nch, decode w = .ok (.extract k nch) →
      if T k < 32 then takesException s' (issue w s) (.format .headerShort) 32 (T k)
      else if 32 + L k nch > T k then takesException s' (issue w s) (.format .bodyShort) (32 + L k nch) (T k)
      else if L k nch % 8 ≠ 0 then takesException s' (issue w s) (.format .unaligned) (32 + L k nch) (T k)
      else ∃ t, issue w s = .next t ∧ t.status = Status.ok.word) ∧
    (decode w = .ok .bitsToBytes →
      if s.blen.toNat % 8 ≠ 0 then takesException s' (issue w s) (.format .unaligned) 0 0
      else ∃ t, issue w s = .next t ∧ t.status = Status.ok.word) ∧
    (decode w = .ok .bytesToBits → ∃ t, issue w s = .next t ∧ t.status = Status.ok.word) ∧
    (∀ c, decode w = .error c → takesException s' (issue w s) (.param c) 0 0) ∧
    (∀ i, decode w = .ok i →
      let o := commandOn (Config.platformWith .lenient) i s'
      (∀ k nch, i = .embed k nch → 32 + 8 * s.plen.toNat > T k →
        takesException s' o .capacity (32 + 8 * s.plen.toNat) (T k)) ∧
      (∀ k nch, i = .extract k nch → T k < 32 → takesException s' o (.format .headerShort) 32 (T k)) ∧
      ((∀ k nch, i = .embed k nch → 32 + 8 * s.plen.toNat ≤ T k) → (∀ k nch, i = .extract k nch → 32 ≤ T k) →
        ∃ t, o = .next t ∧ t.status = Status.ok.word))

/-! ## Whole-machine rules -/

/-- 10_state.md R20: after any command, successful or not, on any platform, and after any command word, the three input buffers
hold what they held before it; and neither `CMD` nor an operand register has changed (R14). -/
def Obligations.InputsAreNeverWritten : Prop :=
  (∀ pf i s t, commandOn pf i s = .next t → s.inputsKept t ∧ s.hostSideKept t) ∧
  (∀ w s t, issue w s = .next t → s.inputsKept t ∧ State.hostSideKept { s with cmd := w } t)

/-- 10_state.md section 3: the engine writes an output buffer only in a command that completes `OK`, and then only the locations
the command's rule names; every other location of every output buffer keeps its value, and a command that raises writes
none. -/
def Obligations.OutputsAreWrittenOnlyInRange : Prop :=
  ∀ i s t, exec i s = .next t →
    (∀ b a, byteWriteRange i s t b ≤ a → t.readByte b a = s.readByte b a) ∧
    (∀ b a, bitWriteRange i s b ≤ a → t.readBit b a = s.readBit b a) ∧
    (t.status ≠ Status.ok.word → s.outputsKept t)

/-- 10_state.md R25: what a command computes and writes is a function of the command, the operand registers it reads, the input
ranges it reads and the policy, and of nothing else: two states that agree on those give the same five engine-written registers
and the same elements in the written output range, under both policies; and a word that spells no command gives the same
registers from any two states. Where a range has elements nothing has written, that they read alike within one state is DEDUCED
(log 17). -/
def Obligations.CommandsDependOnlyOnTheirInputs : Prop :=
  (∀ p i s u, readsSame i s u →
    ∃ t v, commandOn (Config.platformWith p) i s = .next t ∧ commandOn (Config.platformWith p) i u = .next v ∧
      t.sameResults v ∧
      (t.status = Status.ok.word →
        (∀ b, ∀ a < byteWriteRange i s t b, v.readByte b a = t.readByte b a) ∧
        (∀ b, ∀ a < bitWriteRange i s b, v.readBit b a = t.readBit b a))) ∧
  (∀ w c s u, decode w = .error c → ∃ t v, issue w s = .next t ∧ issue w u = .next v ∧ t.sameResults v)

/-- 20_memory.md section 4 ("issuing it again with unchanged operand registers and input buffers leaves exactly the same output
buffers and result registers", which the spec derives): from a state with canonical buffers, a command issued again from the
state it left leaves exactly that state. That it is the same state as data, not only in what it reads as, rests on the model's
canonical form (log 4) and on unwritten elements reading the same twice (log 17). -/
def Obligations.RepeatedCommandLeavesTheSameState : Prop :=
  ∀ i s t, s.buffersWf → exec i s = .next t → exec i t = .next t

/-- 60_exceptions.md and 70_reset_and_hazards.md R118 ("Every command terminates"), on this hardware, whose buffers span their
whole index ranges (the model's choice, log 6): every instruction, every command word and every host action inside the index
ranges has a next state, from every state. -/
def Obligations.ThisHardwareNeverStops : Prop :=
  (∀ i s, ∃ t, exec i s = .next t) ∧ (∀ w s, ∃ t, issue w s = .next t) ∧
  (∀ op s, op.inRange → ∃ t, hostAct Config.platform op s = .next t)

/-- A host that stays inside the index ranges never stops the machine, however long it runs. This rests on the model's choices:
the host's actions as a list (log 1), idling when it is empty (log 2), whole buffers (log 6). -/
def Obligations.HostInsideTheRangesRunsSafely : Prop :=
  ∀ s : State, (∀ op ∈ s.host, op.inRange) → s.runsSafely

/-- 70_reset_and_hazards.md section 3 on buffer limits: on any platform, `BYTES_TO_BITS`, `BITS_TO_BYTES` and `EMBED` run exactly
when their ranges (20_memory.md section 1) stay within what is implemented. `EXTRACT`, whose output range is known only from the
image, runs only within its ranges, and does run when its input range is within and `POUT` is whole. That a command which would
raise is refused too when its ranges exceed the buffers, the limits being checked before the exceptions, is the model's choice
(log 7). -/
def Obligations.CommandsRunExactlyWithinTheLimits : Prop :=
  ∀ (pf : Config.Platform) s,
    ((∃ t, commandOn pf .bytesToBits s = .next t) ↔
      s.plen.toNat ≤ pf.byteLimit .pin ∧ 8 * s.plen.toNat ≤ pf.bitLimit .bout) ∧
    ((∃ t, commandOn pf .bitsToBytes s = .next t) ↔
      s.blen.toNat ≤ pf.bitLimit .bin ∧ s.blen.toNat / 8 ≤ pf.byteLimit .pout) ∧
    (∀ k nch, nchLegal nch = true → ((∃ t, commandOn pf (.embed k nch) s = .next t) ↔
      s.plen.toNat ≤ pf.byteLimit .pin ∧ s.npix.toNat * nch.toNat ≤ pf.byteLimit .xin ∧
      s.npix.toNat * nch.toNat ≤ pf.byteLimit .xout)) ∧
    (∀ k nch, nchLegal nch = true →
      (∀ t, commandOn pf (.extract k nch) s = .next t →
        (∀ p < s.npix.toNat, ∀ c < 3, p * nch.toNat + c < pf.byteLimit .xin) ∧ t.olen.toNat ≤ pf.byteLimit .pout) ∧
      ((∀ p < s.npix.toNat, ∀ c < 3, p * nch.toNat + c < pf.byteLimit .xin) → ByteBuf.size .pout ≤ pf.byteLimit .pout →
        ∃ t, commandOn pf (.extract k nch) s = .next t))

/-- 10_state.md section 2, that no figure overflows its register (which the spec derives): every figure is below two to the power
of its register's width, and so after a command, under both policies, the register holds the figure exactly, as a natural
number. T = NPIX × 3 × k; L is the length `EXTRACT` reads, and with LENIENT its payload may be cut at T. -/
def Obligations.FiguresFitTheirRegisters : Prop :=
  ∀ p (s : State),
    (8 * s.plen.toNat < 2 ^ Reg.oblen.width ∧
      ∀ t, commandOn (Config.platformWith p) .bytesToBits s = .next t → t.oblen.toNat = 8 * s.plen.toNat) ∧
    (s.blen.toNat / 8 < 2 ^ Reg.olen.width ∧
      ∀ t, commandOn (Config.platformWith p) .bitsToBytes s = .next t → t.status = Status.ok.word →
        t.olen.toNat = s.blen.toNat / 8) ∧
    (∀ k nch, nchLegal nch = true →
      let T := s.npix.toNat * 3 * k.bits
      let L := dec32 (slice (s.collected k nch.toNat) 0 32)
      32 + 8 * s.plen.toNat < 2 ^ 33 ∧ T < 2 ^ 35 ∧ 32 + L < 2 ^ 33 ∧ 33 ≤ Reg.req.width ∧ 35 ≤ Reg.avail.width ∧
      L / 8 < 2 ^ Reg.olen.width ∧
      (∀ t, commandOn (Config.platformWith p) (.embed k nch) s = .next t →
        t.req.toNat = 32 + 8 * s.plen.toNat ∧ t.avail.toNat = T) ∧
      (∀ t, commandOn (Config.platformWith p) (.extract k nch) s = .next t →
        t.req.toNat = (if T < 32 then 32 else 32 + L) ∧ t.avail.toNat = T ∧
        (t.status = Status.ok.word → t.olen.toNat = (min (32 + L) T - 32) / 8)))

/-- `exec` is the command at STRICT on whole buffers: "FORMAT_POLICY ... value for this hardware STRICT" (00_scope.md R6, D8,
log 5); the buffers' extent is the model's choice (log 6). -/
def Obligations.ExecIsTheStrictCommand : Prop :=
  ∀ i s, exec i s = commandOn (Config.platformWith .strict) i s

/-! ## The host interface -/

/-- 10_state.md R12: a host write of w to `CMD` stores w and performs the command it spells or raises ParamError, in one
transition; a read returns the last value written; nothing but a `CMD` write or a reset changes `CMD`; it is 0 after reset. -/
def Obligations.CmdWriteIssuesTheCommand : Prop :=
  (∀ (w : Byte) s, hostAct Config.platform (.writeReg .cmd w) s = issue w s ∧
    (∀ i, decode w = .ok i → issue w s = exec i { s with cmd := w }) ∧
    (∀ c, decode w = .error c → takesException { s with cmd := w } (issue w s) (.param c) 0 0) ∧
    (∀ t, issue w s = .next t → t.readReg .cmd = w)) ∧
  (∀ op s t, hostAct Config.platform op s = .next t → (∀ w, op ≠ .writeReg .cmd w) → op ≠ .reset → t.cmd = s.cmd) ∧
  State.reset.readReg .cmd = 0

/-- 10_state.md R17: a host write to registers 1, 5, 6, 7, 8 changes nothing and raises nothing; a host read has no side effect on
any register or buffer; there is no register number above 8. What a read returned is kept in `hostRead`, a field of the model's
own and its choice (log 13), and nothing else changes. -/
def Obligations.HostReadsAndReadOnlyWritesChangeNothing : Prop :=
  (∀ (r : Reg) v s, r.number ∈ [1, 5, 6, 7, 8] → hostAct Config.platform (.writeReg r v) s = .next s) ∧
  (∀ r s, hostAct Config.platform (.readReg r) s = .next { s with hostRead := (s.readReg r).toNat }) ∧
  (∀ b i s, i < ByteBuf.size b →
    hostAct Config.platform (.readByte b i) s = .next { s with hostRead := (s.readByte b i).toNat }) ∧
  (∀ b i s, i < BitBuf.size b →
    hostAct Config.platform (.readBit b i) s = .next { s with hostRead := (s.readBit b i).toNat }) ∧
  (∀ r : Reg, r.number ≤ 8)

/-- 10_state.md R14 on the operand registers: the host may write any value of the width, and that register reads it back, every
other register, every buffer and every pending action being as before. -/
def Obligations.HostWritesOperandRegisters : Prop :=
  ∀ (r : Reg) v s, r ∈ [Reg.plen, .blen, .npix] → ∃ t, hostAct Config.platform (.writeReg r v) s = .next t ∧
    t.readReg r = v ∧ (∀ r', r' ≠ r → t.readReg r' = s.readReg r') ∧
    s.inputsKept t ∧ s.outputsKept t ∧ t.epoch = s.epoch ∧ t.hostRead = s.hostRead ∧ t.host = s.host

/-- 10_state.md section 3: the host may write any element of any buffer, output buffers included, and reads it back; every other
element, every other buffer and every register is as before: no location of one buffer is a location of another. Copying an
element is reading it and writing it (30_encoding.md section 4, log 13). -/
def Obligations.HostWritesOneElement : Prop :=
  (∀ b i v s, i < ByteBuf.size b → ∃ t, hostAct Config.platform (.writeByte b i v) s = .next t ∧
    (∀ c a, t.readByte c a = if c = b ∧ a = i then v else s.readByte c a) ∧ (∀ c a, t.readBit c a = s.readBit c a) ∧
    (∀ r, t.readReg r = s.readReg r) ∧ t.host = s.host) ∧
  (∀ b i v s, i < BitBuf.size b → ∃ t, hostAct Config.platform (.writeBit b i v) s = .next t ∧
    (∀ c a, t.readBit c a = if c = b ∧ a = i then v else s.readBit c a) ∧ (∀ c a, t.readByte c a = s.readByte c a) ∧
    (∀ r, t.readReg r = s.readReg r) ∧ t.host = s.host) ∧
  (∀ dst src i s, i < ByteBuf.size dst → i < ByteBuf.size src →
    ∃ t u, hostAct Config.platform (.readByte src i) s = .next t ∧
      hostAct Config.platform (.writeByte dst i (s.readByte src i)) t = .next u ∧
      hostAct Config.platform (.copyByte dst src i) s = .next u) ∧
  (∀ dst src i s, i < BitBuf.size dst → i < BitBuf.size src →
    ∃ t u, hostAct Config.platform (.readBit src i) s = .next t ∧
      hostAct Config.platform (.writeBit dst i (s.readBit src i)) t = .next u ∧
      hostAct Config.platform (.copyBit dst src i) s = .next u)

/-- 10_state.md section 3 (the index ranges): a host access outside a buffer's index range is a fault, the model's choice for an
element that does not exist (log 8): a write, a read, and a copy from or to such an element (the source is looked at first). -/
def Obligations.NoElementOutsideTheIndexRange : Prop :=
  (∀ b i v s, ByteBuf.size b ≤ i → hostAct Config.platform (.writeByte b i v) s = .fault (.noByteElement b i) ∧
    hostAct Config.platform (.readByte b i) s = .fault (.noByteElement b i)) ∧
  (∀ b i v s, BitBuf.size b ≤ i → hostAct Config.platform (.writeBit b i v) s = .fault (.noBitElement b i) ∧
    hostAct Config.platform (.readBit b i) s = .fault (.noBitElement b i)) ∧
  (∀ dst src i s, ByteBuf.size src ≤ i → hostAct Config.platform (.copyByte dst src i) s = .fault (.noByteElement src i)) ∧
  (∀ dst src i s, i < ByteBuf.size src → ByteBuf.size dst ≤ i →
    hostAct Config.platform (.copyByte dst src i) s = .fault (.noByteElement dst i)) ∧
  (∀ dst src i s, BitBuf.size src ≤ i → hostAct Config.platform (.copyBit dst src i) s = .fault (.noBitElement src i)) ∧
  (∀ dst src i s, i < BitBuf.size src → BitBuf.size dst ≤ i →
    hostAct Config.platform (.copyBit dst src i) s = .fault (.noBitElement dst i))

/-- 10_state.md section 1 (commands are performed in the order of the host's `CMD` writes), in the model's form (log 1): a step
whose next host action writes a command word that decodes to i is exec of i, with the word in `CMD` and the action taken off the
list; placing a table word makes it that action. -/
def Obligations.StepRunsTheIssuedCommand : Prop :=
  (∀ (w : Byte) i rest s, decode w = .ok i → s.host = .writeReg .cmd w :: rest →
    step s = exec i { s with host := rest, cmd := w }) ∧
  (∀ nbits w i (s : State), decodeTableWord nbits w = some i →
    step (s.withFetchWord nbits w) = exec i { s with cmd := BitVec.ofNat 8 (w % 2 ^ nbits) }) ∧
  (∀ op rest s, s.host = op :: rest → step s = hostAct Config.platform op { s with host := rest })

/-- When the host issues no more, the block is idle and keeps all its state (the model's form of 60_exceptions.md R103 and
70_reset_and_hazards.md R118, log 2). -/
def Obligations.IdleBlockKeepsItsState : Prop :=
  ∀ s, s.host = [] → step s = .next s

/-! ## Invariants -/

/-- Every step keeps every buffer in canonical form inside its index range (10_state.md section 3; the canonical form is the
model's, log 4). -/
def Obligations.BuffersStayCanonical : Prop :=
  ∀ s t, s.buffersWf → step s = .next t → t.buffersWf

/-- After reset every buffer is in canonical form (log 4). -/
def Obligations.ResetBuffersAreCanonical : Prop := State.reset.buffersWf

/-- Every step keeps the engine-written registers coherent with the word in `CMD`: no command yet and all zero, or `OK` with figures
that command can have, or an exception that command can raise with the figures it records (10_state.md R13, R15,
60_exceptions.md R90, R94). -/
def Obligations.ResultsStayCoherent : Prop :=
  ∀ s t, s.resultsCoherent → step s = .next t → t.resultsCoherent

/-- After reset the engine-written registers are coherent. -/
def Obligations.ResetResultsAreCoherent : Prop := State.reset.resultsCoherent

/-! ## Smaller platforms, and the host step by step -/

/-- 70_reset_and_hazards.md section 3 on buffer limits, at the host interface: on any platform a `CMD` write of a word that decodes
performs the command with that platform's limits; it is refused when a range its operands fix exceeds what is implemented, and
when `EXTRACT` recovers more bytes than `POUT` has; within the limits it does what it does on whole buffers. A word that spells
no command has no range and takes ParamError. On this hardware's platform the write is the step's. That a refusal comes before
an exception is the model's choice (log 7). -/
def Obligations.CmdWriteBeyondTheLimitsIsRefused : Prop :=
  (∀ pf (w : Byte) i s, decode w = .ok i →
    let s' : State := { s with cmd := w }
    let whole := commandOn (Config.platformWith pf.policy) i s'
    hostAct pf (.writeReg .cmd w) s = commandOn pf i s' ∧
    (¬ rangesFit pf i s → ∃ r, hostAct pf (.writeReg .cmd w) s = .refused r) ∧
    (∀ k nch t, i = .extract k nch → whole = .next t → pf.byteLimit .pout < t.olen.toNat →
      ∃ r, hostAct pf (.writeReg .cmd w) s = .refused r) ∧
    (∀ t, rangesFit pf i s → whole = .next t → t.olen.toNat ≤ pf.byteLimit .pout →
      hostAct pf (.writeReg .cmd w) s = .next t)) ∧
  (∀ pf (w : Byte) c s, decode w = .error c →
    takesException { s with cmd := w } (hostAct pf (.writeReg .cmd w) s) (.param c) 0 0) ∧
  (∀ (w : Byte) s, hostAct Config.platform (.writeReg .cmd w) s = issue w s)

/-- From every state whose host stays inside the index ranges a step answers a next state, whose host stays inside them too. This
rests on the model's choices: the host's actions as a list (log 1), idling when it is empty (log 2), whole buffers (log 6). -/
def Obligations.HostInTheRangesStaysInTheRanges : Prop :=
  ∀ s : State, (∀ op ∈ s.host, op.inRange) → ∃ t, step s = .next t ∧ ∀ op ∈ t.host, op.inRange
end

