-- ==== Sys2Proof/Laws/Bitstream.lean ====
section
/-! SUPPORT. Bitstreams as numbers and back: the one pair of inverse readings (first digit most significant) through which
SER8 and DES8, ENC32 and DEC32, UNGROUP and GROUP are all inverse; serialising and deserialising byte sequences. -/

namespace Sys2Proof.Machine

/-- The `w` binary digits of a number, most significant first. -/
def msbBits (w n : Nat) : Bits := (List.range w).map fun j => n.testBit (w - 1 - j)

@[simp] theorem length_msbBits (w n : Nat) : (msbBits w n).length = w := by simp [msbBits]

@[simp] theorem getElem_msbBits (w n i : Nat) (h : i < (msbBits w n).length) :
    (msbBits w n)[i] = n.testBit (w - 1 - i) := by simp [msbBits]

@[simp] theorem msbNumber_nil : msbNumber [] = 0 := rfl

@[simp] theorem msbNumber_snoc (B : Bits) (b : Bit) : msbNumber (B ++ [b]) = 2 * msbNumber B + b.toNat := by
  simp [msbNumber]

/-- A bitstream as a number is below two to its length. -/
theorem msbNumber_lt (B : Bits) : msbNumber B < 2 ^ B.length := by
  induction B using List.reverseRecOn with
  | nil => simp
  | append_singleton B b ih =>
    simp only [msbNumber_snoc, List.length_append, List.length_singleton, pow_succ]
    have := Bool.toNat_le b
    omega

/-- Digit `i` of the number is the bit that stands `i` places before the end. -/
theorem testBit_msbNumber (B : Bits) (i : Nat) (h : i < B.length) :
    (msbNumber B).testBit i = B[B.length - 1 - i] := by
  induction B using List.reverseRecOn generalizing i with
  | nil => simp at h
  | append_singleton B b ih =>
    simp only [msbNumber_snoc]
    cases i with
    | zero => cases b <;> simp [Nat.testBit_zero]
    | succ i =>
      simp only [List.length_append, List.length_singleton] at h
      have e : (2 * msbNumber B + b.toNat) / 2 = msbNumber B := by have := Bool.toNat_le b; omega
      rw [Nat.testBit_succ, e, ih i (by omega)]
      simp only [List.length_append, List.length_singleton]
      rw [List.getElem_append_left (by omega)]
      congr 1
      omega

/-- The digits of a bitstream's number are the bitstream. -/
theorem msbBits_msbNumber (B : Bits) : msbBits B.length (msbNumber B) = B := by
  apply List.ext_getElem (by simp)
  intro i h1 h2
  rw [getElem_msbBits, testBit_msbNumber B _ (by omega)]
  congr 1
  omega

/-- The number of a number's digits is the number, as far as they reach. -/
theorem msbNumber_msbBits (w n : Nat) : msbNumber (msbBits w n) = n % 2 ^ w := by
  apply Nat.eq_of_testBit_eq
  intro i
  rw [Nat.testBit_mod_two_pow]
  by_cases h : i < w
  · rw [testBit_msbNumber _ _ (by simpa using h)]
    have e : w - 1 - (w - 1 - i) = i := by omega
    simp [h, e]
  · have hl := msbNumber_lt (msbBits w n)
    rw [length_msbBits] at hl
    rw [Nat.testBit_lt_two_pow (lt_of_lt_of_le hl (Nat.pow_le_pow_right (by norm_num) (by omega)))]
    simp [h]

/-! The coders are this pair at 8, 32 and k digits. -/

theorem ser8_eq (b : Byte) : ser8 b = msbBits 8 b.toNat := by
  simp [ser8, msbBits, BitVec.testBit_toNat]

theorem enc32_eq (L : BitVec 32) : enc32 L = msbBits 32 L.toNat := by
  simp [enc32, msbBits, BitVec.testBit_toNat, Config.hdrW]

theorem ungroup_eq (g : Nat) (k : LsbWidth) : ungroup g k = msbBits k.bits g := rfl

@[simp] theorem length_ser8 (b : Byte) : (ser8 b).length = 8 := by simp [ser8]

@[simp] theorem length_enc32 (L : BitVec 32) : (enc32 L).length = 32 := by simp [enc32, Config.hdrW]

@[simp] theorem length_ungroup (g : Nat) (k : LsbWidth) : (ungroup g k).length = k.bits := by simp [ungroup]

theorem des8_ser8 (b : Byte) : des8 (ser8 b) = b := by
  rw [des8, ser8_eq, msbNumber_msbBits]
  apply BitVec.eq_of_toNat_eq
  simpa using b.isLt

theorem ser8_des8 (G : Bits) (h : G.length = 8) : ser8 (des8 G) = G := by
  have hl := msbNumber_lt G
  rw [h] at hl
  rw [ser8_eq, des8, BitVec.toNat_ofNat, Nat.mod_eq_of_lt hl, ← h, msbBits_msbNumber]

theorem dec32_enc32 (L : BitVec 32) : dec32 (enc32 L) = L.toNat := by
  rw [dec32, enc32_eq, msbNumber_msbBits, Nat.mod_eq_of_lt L.isLt]

theorem enc32_dec32 (H : Bits) (h : H.length = 32) : enc32 (BitVec.ofNat 32 (dec32 H)) = H := by
  have hl := msbNumber_lt H
  rw [h] at hl
  rw [enc32_eq, dec32, BitVec.toNat_ofNat, Nat.mod_eq_of_lt hl, ← h, msbBits_msbNumber]

/-! Slices. -/

@[simp] theorem length_slice (B : Bits) (i j : Nat) : (slice B i j).length = min (j - i) (B.length - i) := by
  simp [slice]

@[simp] theorem getElem_slice (B : Bits) (i j n : Nat) (h : n < (slice B i j).length) :
    (slice B i j)[n] = B[i + n]'(by simp at h; omega) := by
  simp [slice]

/-- A slice inside the first part of a concatenation. -/
theorem slice_append_left (A B : Bits) (i j : Nat) (h : j ≤ A.length) : slice (A ++ B) i j = slice A i j := by
  apply List.ext_getElem
  · simp; omega
  · intro n h1 h2
    rw [getElem_slice, getElem_slice, List.getElem_append_left]

/-- A slice inside the second part of a concatenation. -/
theorem slice_append_right (A B : Bits) (i j : Nat) (h : A.length ≤ i) :
    slice (A ++ B) i j = slice B (i - A.length) (j - A.length) := by
  apply List.ext_getElem
  · simp; omega
  · intro n h1 h2
    rw [getElem_slice, getElem_slice, List.getElem_append_right (by omega)]
    congr 1
    omega

@[simp] theorem slice_self (B : Bits) : slice B 0 B.length = B := by simp [slice]

theorem slice_to_end (B : Bits) (n : Nat) (h : n = B.length) : slice B 0 n = B := by subst h; simp

/-- A slice of a slice. -/
theorem slice_slice (B : Bits) (i j m n : Nat) (h : n ≤ j - i) : slice (slice B i j) m n = slice B (i + m) (i + n) := by
  apply List.ext_getElem
  · simp; omega
  · intro l h1 h2
    simp only [getElem_slice]
    congr 1
    omega

/-! Byte sequences. -/

@[simp] theorem ser_nil : ser [] = [] := rfl

@[simp] theorem ser_cons (b : Byte) (D : List Byte) : ser (b :: D) = ser8 b ++ ser D := by simp [ser]

@[simp] theorem length_ser (D : List Byte) : (ser D).length = 8 * D.length := by
  induction D with
  | nil => rfl
  | cons b D ih => simp [ih]; omega

/-- Byte `i`'s bits stand at indices `8 i` to `8 i + 7`. -/
theorem slice_ser (D : List Byte) (i : Nat) (h : i < D.length) : slice (ser D) (8 * i) (8 * i + 8) = ser8 D[i] := by
  induction D generalizing i with
  | nil => simp at h
  | cons b D ih =>
    cases i with
    | zero =>
      rw [ser_cons, slice_append_left _ _ _ _ (by simp)]
      exact slice_to_end _ _ (by simp)
    | succ i =>
      simp only [List.length_cons] at h
      rw [ser_cons, slice_append_right _ _ _ _ (by rw [length_ser8]; omega), List.getElem_cons_succ, ← ih i (by omega)]
      simp only [length_ser8]
      congr 1

/-- Bit `8 i + j` of a serialised sequence is bit `7 - j` of byte `i` (spec/40_bit_codec.md R48). -/
theorem getElem_ser (D : List Byte) (i j : Nat) (hi : i < D.length) (hj : j < 8) :
    (ser D)[8 * i + j]'(by simp; omega) = D[i].getLsbD (7 - j) := by
  have e := slice_ser D i hi
  have h1 : j < (slice (ser D) (8 * i) (8 * i + 8)).length := by simp; omega
  have h2 : (slice (ser D) (8 * i) (8 * i + 8))[j] = (ser8 D[i])[j]'(by simpa using hj) := by simp only [e]
  rw [getElem_slice] at h2
  rw [h2]
  simp [ser8]

@[simp] theorem length_desGroups (B : Bits) : (desGroups B).length = B.length / 8 := by simp [desGroups]

@[simp] theorem getElem_desGroups (B : Bits) (i : Nat) (h : i < (desGroups B).length) :
    (desGroups B)[i] = des8 (slice B (8 * i) (8 * i + 8)) := by simp [desGroups]

theorem desGroups_ser (D : List Byte) : desGroups (ser D) = D := by
  apply List.ext_getElem
  · simp
  · intro i h1 h2
    rw [getElem_desGroups, slice_ser D i h2, des8_ser8]

/-- Serialising the whole groups of a bitstream gives back the bitstream as far as they reach. -/
theorem ser_desGroups (B : Bits) : ser (desGroups B) = slice B 0 (8 * (B.length / 8)) := by
  apply List.ext_getElem
  · simp; omega
  · intro n h1 h2
    simp only [length_ser, length_desGroups] at h1
    have hi : n / 8 < (desGroups B).length := by simp; omega
    have hn : 8 * (n / 8) + n % 8 = n := Nat.div_add_mod n 8
    have e := getElem_ser (desGroups B) (n / 8) (n % 8) hi (Nat.mod_lt _ (by norm_num))
    simp only [hn] at e
    rw [e, getElem_desGroups]
    have hG : (slice B (8 * (n / 8)) (8 * (n / 8) + 8)).length = 8 := by simp; omega
    have e2 : (ser8 (des8 (slice B (8 * (n / 8)) (8 * (n / 8) + 8))))[n % 8]'(by simp; omega)
        = (slice B (8 * (n / 8)) (8 * (n / 8) + 8))[n % 8]'(by rw [hG]; omega) := by
      simp only [ser8_des8 _ hG]
    rw [getElem_slice] at e2
    rw [getElem_slice]
    simp only [ser8, List.getElem_map, List.getElem_range] at e2
    rw [e2]
    congr 1
    omega

/-- What deserialising can do: it answers the whole groups, or refuses an unaligned length under `STRICT`. -/
theorem des_cases (policy : FormatPolicy) (B : Bits) :
    (des policy B = .ok (desGroups B) ∧ (B.length % 8 = 0 ∨ policy = .lenient)) ∨
    (des policy B = .error .unaligned ∧ B.length % 8 ≠ 0 ∧ policy = .strict) := by
  unfold des
  split_ifs with h
  · exact .inr ⟨rfl, h⟩
  · refine .inl ⟨rfl, ?_⟩
    cases policy
    · left; by_contra hc; exact h ⟨hc, rfl⟩
    · right; rfl

/-! The frame. -/

@[simp] theorem length_frame (D : List Byte) : (frame D).length = 32 + 8 * D.length := by simp [frame]

theorem slice_frame_header (D : List Byte) (X : Bits) (h : D.length < 2 ^ 29) :
    dec32 (slice (frame D ++ X) 0 32) = 8 * D.length := by
  rw [slice_append_left _ _ _ _ (by simp), frame, slice_append_left _ _ _ _ (by simp), slice_to_end _ _ (by simp),
    dec32_enc32, BitVec.toNat_ofNat, Nat.mod_eq_of_lt (by omega)]

theorem slice_frame_payload (D : List Byte) (X : Bits) :
    slice (frame D ++ X) 32 (32 + 8 * D.length) = ser D := by
  rw [slice_append_left _ _ _ _ (by simp), frame, slice_append_right _ _ _ _ (by simp)]
  exact slice_to_end _ _ (by simp)

end Sys2Proof.Machine
end

