-- ==== Sys2Proof/Laws/Carriers.lean ====
section
/-! SUPPORT. The distributor's masks bit by bit, carriers and their places, and the stream `EXTRACT` collects in closed form
(spec/42_lsb_distributor.md, 43_channel_mux.md, 45_extract.md R83). -/

namespace Sys2Proof

theorem LsbWidth.bits_pos (k : LsbWidth) : 0 < k.bits := by cases k <;> decide

theorem LsbWidth.bits_le (k : LsbWidth) : k.bits ≤ 2 := by cases k <;> decide

/-- A frame is a whole number of k-bit groups (spec/20_memory.md R32 b). -/
theorem LsbWidth.bits_dvd (k : LsbWidth) (n : Nat) : k.bits ∣ 32 + 8 * n := by
  cases k
  · exact one_dvd _
  · exact ⟨16 + 4 * n, by simp [LsbWidth.bits]; ring⟩

end Sys2Proof

namespace Sys2Proof.Machine

/-- Bit `i` of LOWMASK is 1 exactly below k. -/
theorem getLsbD_lowmask (k : LsbWidth) (i : Nat) : (lowmask k).getLsbD i = decide (i < k.bits) := by
  by_cases h : i < 8
  · cases k <;> (revert h; revert i; decide)
  · have := k.bits_le
    rw [BitVec.getLsbD_of_ge _ _ (by omega)]
    simp; omega

/-- Bit `i` of MASK is 1 exactly from k to 7. -/
theorem getLsbD_mask (k : LsbWidth) (i : Nat) : (mask k).getLsbD i = (decide (i < 8) && !decide (i < k.bits)) := by
  by_cases h : i < 8
  · cases k <;> (revert h; revert i; decide)
  · rw [BitVec.getLsbD_of_ge _ _ (by omega)]
    simp [h]

/-- The group of a sample is its low k bits. -/
theorem testBit_ext (x : Sample) (k : LsbWidth) (i : Nat) : (ext x k).testBit i = (x.getLsbD i && decide (i < k.bits)) := by
  rw [ext, BitVec.testBit_toNat, BitVec.getLsbD_and, getLsbD_lowmask]

theorem ext_lt (x : Sample) (k : LsbWidth) : ext x k < 2 ^ k.bits := by
  apply Nat.lt_of_testBit k.bits
  · simp [testBit_ext]
  · exact Nat.testBit_two_pow_self
  · intro j hj
    rw [testBit_ext, Nat.testBit_two_pow]
    have h1 : ¬ j < k.bits := by omega
    have h2 : k.bits ≠ j := by omega
    simp [h1, h2]

theorem group_lt (F : Bits) (i : Nat) (k : LsbWidth) : group F i k < 2 ^ k.bits := by
  refine lt_of_lt_of_le (msbNumber_lt _) (Nat.pow_le_pow_right (by norm_num) ?_)
  simp

/-- Inserting a group: its bits below k, the sample's own bits above (spec/42_lsb_distributor.md R64). -/
theorem getLsbD_ins (x : Sample) (g : Nat) (k : LsbWidth) (hg : g < 2 ^ k.bits) (i : Nat) :
    (ins x g k).getLsbD i = if i < k.bits then g.testBit i else x.getLsbD i := by
  have hk := k.bits_le
  rw [ins, BitVec.getLsbD_or, BitVec.getLsbD_and, getLsbD_mask, BitVec.getLsbD_ofNat]
  by_cases h : i < k.bits
  · have : i < 8 := by omega
    simp [h, this]
  · rw [Nat.testBit_lt_two_pow (lt_of_lt_of_le hg (Nat.pow_le_pow_right (by norm_num) (by omega)))]
    by_cases h8 : i < 8
    · simp [h, h8]
    · simp [h, BitVec.getLsbD_of_ge x i (by omega)]

/-- What was inserted is what is extracted (spec/42_lsb_distributor.md R66 a). -/
theorem ext_ins (x : Sample) (g : Nat) (k : LsbWidth) (hg : g < 2 ^ k.bits) : ext (ins x g k) k = g := by
  apply Nat.eq_of_testBit_eq
  intro i
  rw [testBit_ext, getLsbD_ins x g k hg]
  by_cases h : i < k.bits
  · simp [h]
  · rw [Nat.testBit_lt_two_pow (lt_of_lt_of_le hg (Nat.pow_le_pow_right (by norm_num) (by omega)))]
    simp [h]

/-- A group ungrouped is the slice it was made of (spec/42_lsb_distributor.md R63). -/
theorem ungroup_group (F : Bits) (i : Nat) (k : LsbWidth) (h : i + k.bits ≤ F.length) :
    ungroup (group F i k) k = slice F i (i + k.bits) := by
  have hl : (slice F i (i + k.bits)).length = k.bits := by simp; omega
  have e := msbBits_msbNumber (slice F i (i + k.bits))
  rwa [hl] at e

/-- Blocks of one length, one after another: element `i` is in block `i / m`. -/
theorem getElem?_flatMap_range {α : Type} (n m : Nat) (f : Nat → List α) (hf : ∀ i, (f i).length = m) (i : Nat)
    (h : i < n * m) : ((List.range n).flatMap f)[i]? = (f (i / m))[i % m]? := by
  have hl : ∀ n, ((List.range n).flatMap f).length = n * m := by
    intro n
    induction n with
    | zero => simp
    | succ n ih => simp [List.range_succ, hf, ih, Nat.succ_mul]
  induction n with
  | zero => simp at h
  | succ n ih =>
    rw [List.range_succ, List.flatMap_append]
    by_cases hi : i < n * m
    · rw [List.getElem?_append_left (by rw [hl]; exact hi), ih hi]
    · rw [Nat.succ_mul] at h
      rw [List.getElem?_append_right (by rw [hl]; omega), hl]
      have hm : 0 < m := by omega
      have hd : i / m = n := by
        apply Nat.div_eq_of_lt_le
        · omega
        · rw [Nat.succ_mul]; exact h
      have hmod : i % m = i - n * m := by
        have := Nat.div_add_mod i m
        rw [hd] at this
        have e : m * n = n * m := Nat.mul_comm _ _
        omega
      simp [hd, hmod]

theorem length_flatMap_range {α : Type} (n m : Nat) (f : Nat → List α) (hf : ∀ i, (f i).length = m) :
    ((List.range n).flatMap f).length = n * m := by
  induction n with
  | zero => simp
  | succ n ih => simp [List.range_succ, hf, ih, Nat.succ_mul]

/-- The stream of one pixel. -/
theorem length_pixelStream (k : LsbWidth) (f : Nat → Nat) :
    (carryingChannels.flatMap fun c => ungroup (f c) k).length = Config.ncarry * k.bits :=
  length_flatMap_range _ _ _ fun _ => length_ungroup _ _

@[simp] theorem length_collected (s : State) (k : LsbWidth) (nch : Nat) :
    (s.collected k nch).length = s.available k := by
  rw [State.collected, length_flatMap_range _ (Config.ncarry * k.bits) _ fun _ => length_pixelStream ..]
  simp [State.available, available, Nat.mul_assoc]

/-- Stream index `i` is bit `k - 1 - i mod k` of carrier `i / k`, in closed form. -/
theorem getElem?_collected (s : State) (k : LsbWidth) (nch i : Nat) (h : i < s.available k) :
    (s.collected k nch)[i]? =
      some ((s.readByte .xin (carrierAddr nch (streamCarrier k i))).getLsbD (streamSampleBit k i)) := by
  have hk := k.bits_pos
  rw [State.collected, getElem?_flatMap_range _ (Config.ncarry * k.bits) _ (fun _ => length_pixelStream ..) _
    (by simpa [State.available, available, Nat.mul_assoc] using h)]
  have hm : i % (Config.ncarry * k.bits) < Config.ncarry * k.bits :=
    Nat.mod_lt _ (Nat.mul_pos (by decide) hk)
  rw [carryingChannels, getElem?_flatMap_range _ k.bits _ (fun _ => length_ungroup _ _) _ hm]
  have e1 : i / (Config.ncarry * k.bits) = carrierPixel (streamCarrier k i) := by
    rw [carrierPixel, streamCarrier, Nat.div_div_eq_div_mul, Nat.mul_comm]
  have e2 : i % (Config.ncarry * k.bits) / k.bits = carrierChannel (streamCarrier k i) := by
    rw [carrierChannel, streamCarrier, Nat.mul_comm, Nat.mod_mul_right_div_self]
  have e3 : i % (Config.ncarry * k.bits) % k.bits = i % k.bits := Nat.mod_mul_left_mod ..
  rw [e1, e2, e3]
  have hj : i % k.bits < k.bits := Nat.mod_lt _ hk
  simp only [ungroup, List.getElem?_map, List.getElem?_range hj, Option.map_some, testBit_ext, carrierAddr, State.sample,
    streamSampleBit]
  have : k.bits - 1 - i % k.bits < k.bits := by omega
  simp [this]

end Sys2Proof.Machine
end

