-- ==== Sys2Proof/Laws/Memory.lean ====
section
/-! SUPPORT. The laws of buffers as data: reading after writing, keeping the canonical form, equal reads make equal data. -/

namespace Sys2Proof.Machine

variable {α : Type}

@[simp] theorem Memory.get?_nil (a : Nat) : Memory.get? ([] : Memory α) a = none := rfl

theorem Memory.get?_cons (c : Nat × α) (m : Memory α) (a : Nat) :
    Memory.get? (c :: m) a = if a = c.1 then some c.2 else m.get? a := rfl

/-- A read after a write gives the value written at that index, and what was there at every other. -/
theorem Memory.get?_write (m : Memory α) (a b : Nat) (v : α) :
    (m.write a v).get? b = if b = a then some v else m.get? b := by
  induction m with
  | nil => rfl
  | cons c m ih =>
    obtain ⟨i, u⟩ := c
    unfold Memory.write
    by_cases h1 : a < i
    · simp only [if_pos h1, Memory.get?_cons]
    · by_cases h2 : a = i
      · subst h2
        rw [if_neg h1, if_pos rfl]
        simp only [Memory.get?_cons]
        split_ifs <;> rfl
      · simp only [if_neg h1, if_neg h2, Memory.get?_cons, ih]
        split_ifs <;> first | rfl | omega

@[simp] theorem Memory.get?_write_same (m : Memory α) (a : Nat) (v : α) : (m.write a v).get? a = some v := by
  simp [Memory.get?_write]

theorem Memory.get?_write_other (m : Memory α) {a b : Nat} (v : α) (h : b ≠ a) :
    (m.write a v).get? b = m.get? b := by
  simp [Memory.get?_write, h]

/-- A sequence of writes gives its elements inside its range, and what was there outside. -/
theorem Memory.get?_writeSeq (m : Memory α) (a b : Nat) (vs : List α) :
    (m.writeSeq a vs).get? b = if a ≤ b ∧ b < a + vs.length then vs[b - a]? else m.get? b := by
  induction vs generalizing m a with
  | nil => simp [Memory.writeSeq]
  | cons v vs ih =>
    rw [Memory.writeSeq, ih, Memory.get?_write]
    simp only [List.length_cons]
    by_cases hb : b = a
    · subst hb; simp
    · by_cases h : a ≤ b
      · obtain ⟨d, rfl⟩ : ∃ d, b = a + 1 + d := ⟨b - a - 1, by omega⟩
        have e1 : a + 1 + d - (a + 1) = d := by omega
        have e2 : a + 1 + d - a = d + 1 := by omega
        simp only [e1, e2, List.getElem?_cons_succ]
        split_ifs <;> first | rfl | omega
      · split_ifs <;> first | rfl | omega

/-- Every index of the list after a write was there before or is the one written. -/
theorem Memory.mem_write {m : Memory α} {a : Nat} {v : α} {c : Nat × α} (h : c ∈ m.write a v) :
    c = (a, v) ∨ c ∈ m := by
  induction m with
  | nil => simpa [Memory.write] using h
  | cons d m ih =>
    obtain ⟨i, u⟩ := d
    unfold Memory.write at h
    split_ifs at h with h1 h2
    · simpa using h
    · simp only [List.mem_cons] at h ⊢; tauto
    · rcases List.mem_cons.1 h with h | h
      · exact .inr (List.mem_cons.2 (.inl h))
      · rcases ih h with h | h
        · exact .inl h
        · exact .inr (List.mem_cons.2 (.inr h))

/-- A write inside the buffer keeps the canonical form. -/
theorem Memory.wf_write {n : Nat} {m : Memory α} (h : Memory.wf n m) {a : Nat} (ha : a < n) (v : α) :
    Memory.wf n (m.write a v) := by
  constructor
  · have hs := h.1
    clear h
    induction m with
    | nil => simp [Memory.write]
    | cons d m ih =>
      obtain ⟨i, u⟩ := d
      rw [List.pairwise_cons] at hs
      unfold Memory.write
      split_ifs with h1 h2
      · refine List.pairwise_cons.2 ⟨?_, List.pairwise_cons.2 hs⟩
        intro c hc
        rcases List.mem_cons.1 hc with rfl | hc
        · exact h1
        · have := hs.1 c hc; simp only at this ⊢; omega
      · exact List.pairwise_cons.2 ⟨fun c hc => by have := hs.1 c hc; simp only at this ⊢; omega, hs.2⟩
      · refine List.pairwise_cons.2 ⟨?_, ih hs.2⟩
        intro c hc
        rcases Memory.mem_write hc with rfl | hc
        · simp only; omega
        · exact hs.1 c hc
  · intro c hc
    rcases Memory.mem_write hc with rfl | hc
    · exact ha
    · exact h.2 c hc

/-- A sequence of writes inside the buffer keeps the canonical form. -/
theorem Memory.wf_writeSeq {n : Nat} {m : Memory α} (h : Memory.wf n m) {a : Nat} (vs : List α)
    (ha : a + vs.length ≤ n) : Memory.wf n (m.writeSeq a vs) := by
  induction vs generalizing m a with
  | nil => exact h
  | cons v vs ih =>
    simp only [List.length_cons] at ha
    exact ih (Memory.wf_write h (by omega) v) (by omega)

@[simp] theorem Memory.wf_nil (n : Nat) : Memory.wf n ([] : Memory α) := by simp [Memory.wf]

/-- An index below every listed one is not listed. -/
theorem Memory.get?_none_of_lt {m : Memory α} {a : Nat} (h : ∀ c ∈ m, a < c.1) : m.get? a = none := by
  induction m with
  | nil => rfl
  | cons d m ih =>
    have := h d (by simp)
    rw [Memory.get?_cons, if_neg (by omega)]
    exact ih fun c hc => h c (by simp [hc])

/-- Canonical buffers that read the same are the same data. -/
theorem Memory.ext_of_sorted {m m' : Memory α} (h : m.Pairwise (fun c d => c.1 < d.1))
    (h' : m'.Pairwise (fun c d => c.1 < d.1)) (e : ∀ a, m.get? a = m'.get? a) : m = m' := by
  induction m generalizing m' with
  | nil =>
    cases m' with
    | nil => rfl
    | cons d m' => have := e d.1; simp [Memory.get?_cons] at this
  | cons c m ih =>
    cases m' with
    | nil => have := e c.1; simp [Memory.get?_cons] at this
    | cons d m' =>
      obtain ⟨i, u⟩ := c
      obtain ⟨j, w⟩ := d
      rw [List.pairwise_cons] at h h'
      have hij : i = j := by
        rcases Nat.lt_trichotomy i j with hl | he | hg
        · have := e i
          rw [Memory.get?_cons, if_pos rfl, Memory.get?_cons, if_neg (by omega),
            Memory.get?_none_of_lt fun c hc => lt_trans hl (h'.1 c hc)] at this
          cases this
        · exact he
        · have := e j
          rw [Memory.get?_cons (j, w), if_pos rfl, Memory.get?_cons, if_neg (by omega),
            Memory.get?_none_of_lt fun c hc => lt_trans hg (h.1 c hc)] at this
          cases this
      subst hij
      have huw : u = w := by
        have := e i
        simpa [Memory.get?_cons] using this
      subst huw
      congr 1
      refine ih h.2 h'.2 fun a => ?_
      by_cases ha : a = i
      · subst ha
        rw [Memory.get?_none_of_lt h.1, Memory.get?_none_of_lt h'.1]
      · have := e a
        simpa [Memory.get?_cons, ha] using this

end Sys2Proof.Machine
end

