-- ==== Sys2Proof/Laws/State.lean ====
section
/-! SUPPORT. One lemma for each field of each update of the state, and for each way of reading a buffer after it. -/

namespace Sys2Proof.Machine

section setBytes
variable (s : State) (b : ByteBuf) (m : Memory Byte)

@[simp] theorem State.setBytes_cmd : (s.setBytes b m).cmd = s.cmd := by cases b <;> rfl
@[simp] theorem State.setBytes_status : (s.setBytes b m).status = s.status := by cases b <;> rfl
@[simp] theorem State.setBytes_plen : (s.setBytes b m).plen = s.plen := by cases b <;> rfl
@[simp] theorem State.setBytes_blen : (s.setBytes b m).blen = s.blen := by cases b <;> rfl
@[simp] theorem State.setBytes_npix : (s.setBytes b m).npix = s.npix := by cases b <;> rfl
@[simp] theorem State.setBytes_olen : (s.setBytes b m).olen = s.olen := by cases b <;> rfl
@[simp] theorem State.setBytes_oblen : (s.setBytes b m).oblen = s.oblen := by cases b <;> rfl
@[simp] theorem State.setBytes_req : (s.setBytes b m).req = s.req := by cases b <;> rfl
@[simp] theorem State.setBytes_avail : (s.setBytes b m).avail = s.avail := by cases b <;> rfl
@[simp] theorem State.setBytes_epoch : (s.setBytes b m).epoch = s.epoch := by cases b <;> rfl
@[simp] theorem State.setBytes_hostRead : (s.setBytes b m).hostRead = s.hostRead := by cases b <;> rfl
@[simp] theorem State.setBytes_host : (s.setBytes b m).host = s.host := by cases b <;> rfl
@[simp] theorem State.bytes_setBytes_same : (s.setBytes b m).bytes b = m := by cases b <;> rfl
theorem State.bytes_setBytes_other {c : ByteBuf} (h : c ≠ b) : (s.setBytes b m).bytes c = s.bytes c := by
  cases b <;> cases c <;> first | rfl | exact absurd rfl h
@[simp] theorem State.bitsOf_setBytes (c : BitBuf) : (s.setBytes b m).bitsOf c = s.bitsOf c := by
  cases b <;> cases c <;> rfl

end setBytes

section setBits
variable (s : State) (b : BitBuf) (m : Memory Bit)

@[simp] theorem State.setBits_cmd : (s.setBits b m).cmd = s.cmd := by cases b <;> rfl
@[simp] theorem State.setBits_status : (s.setBits b m).status = s.status := by cases b <;> rfl
@[simp] theorem State.setBits_plen : (s.setBits b m).plen = s.plen := by cases b <;> rfl
@[simp] theorem State.setBits_blen : (s.setBits b m).blen = s.blen := by cases b <;> rfl
@[simp] theorem State.setBits_npix : (s.setBits b m).npix = s.npix := by cases b <;> rfl
@[simp] theorem State.setBits_olen : (s.setBits b m).olen = s.olen := by cases b <;> rfl
@[simp] theorem State.setBits_oblen : (s.setBits b m).oblen = s.oblen := by cases b <;> rfl
@[simp] theorem State.setBits_req : (s.setBits b m).req = s.req := by cases b <;> rfl
@[simp] theorem State.setBits_avail : (s.setBits b m).avail = s.avail := by cases b <;> rfl
@[simp] theorem State.setBits_epoch : (s.setBits b m).epoch = s.epoch := by cases b <;> rfl
@[simp] theorem State.setBits_hostRead : (s.setBits b m).hostRead = s.hostRead := by cases b <;> rfl
@[simp] theorem State.setBits_host : (s.setBits b m).host = s.host := by cases b <;> rfl
@[simp] theorem State.bitsOf_setBits_same : (s.setBits b m).bitsOf b = m := by cases b <;> rfl
theorem State.bitsOf_setBits_other {c : BitBuf} (h : c ≠ b) : (s.setBits b m).bitsOf c = s.bitsOf c := by
  cases b <;> cases c <;> first | rfl | exact absurd rfl h
@[simp] theorem State.bytes_setBits (c : ByteBuf) : (s.setBits b m).bytes c = s.bytes c := by
  cases b <;> cases c <;> rfl

end setBits

section report
variable (s : State) (st : Status) (olen oblen req avail : Nat)

@[simp] theorem State.report_cmd : (s.report st olen oblen req avail).cmd = s.cmd := rfl
@[simp] theorem State.report_status : (s.report st olen oblen req avail).status = st.word := rfl
@[simp] theorem State.report_plen : (s.report st olen oblen req avail).plen = s.plen := rfl
@[simp] theorem State.report_blen : (s.report st olen oblen req avail).blen = s.blen := rfl
@[simp] theorem State.report_npix : (s.report st olen oblen req avail).npix = s.npix := rfl
@[simp] theorem State.report_olen : (s.report st olen oblen req avail).olen = BitVec.ofNat 29 olen := rfl
@[simp] theorem State.report_oblen : (s.report st olen oblen req avail).oblen = BitVec.ofNat 32 oblen := rfl
@[simp] theorem State.report_req : (s.report st olen oblen req avail).req = BitVec.ofNat 36 req := rfl
@[simp] theorem State.report_avail : (s.report st olen oblen req avail).avail = BitVec.ofNat 36 avail := rfl
@[simp] theorem State.report_epoch : (s.report st olen oblen req avail).epoch = s.epoch := rfl
@[simp] theorem State.report_hostRead : (s.report st olen oblen req avail).hostRead = s.hostRead := rfl
@[simp] theorem State.report_host : (s.report st olen oblen req avail).host = s.host := rfl
@[simp] theorem State.report_bytes (b : ByteBuf) : (s.report st olen oblen req avail).bytes b = s.bytes b := by
  cases b <;> rfl
@[simp] theorem State.report_bitsOf (b : BitBuf) : (s.report st olen oblen req avail).bitsOf b = s.bitsOf b := by
  cases b <;> rfl
@[simp] theorem State.report_readByte (b : ByteBuf) (a : Nat) :
    (s.report st olen oblen req avail).readByte b a = s.readByte b a := by cases b <;> rfl
@[simp] theorem State.report_readBit (b : BitBuf) (a : Nat) :
    (s.report st olen oblen req avail).readBit b a = s.readBit b a := by cases b <;> rfl

/-- Where the figures fit their registers, a report is exact (spec/10_state.md R18). -/
theorem State.report_reports (h1 : olen < 2 ^ 29) (h2 : oblen < 2 ^ 32) (h3 : req < 2 ^ 36) (h4 : avail < 2 ^ 36) :
    (s.report st olen oblen req avail).reports st olen oblen req avail := by
  refine ⟨rfl, ?_, ?_, ?_, ?_⟩ <;> simp <;> omega

/-- A report changes none of the host's side. -/
theorem State.report_hostSideKept : s.hostSideKept (s.report st olen oblen req avail) :=
  ⟨rfl, rfl, rfl, rfl, rfl, rfl, rfl⟩

end report

@[simp] theorem State.readByte_setBytes_other (s : State) {b c : ByteBuf} (m : Memory Byte) (a : Nat) (h : c ≠ b) :
    (s.setBytes b m).readByte c a = s.readByte c a := by
  simp [State.readByte, State.bytes_setBytes_other s b m h]

@[simp] theorem State.readBit_setBytes (s : State) (b : ByteBuf) (c : BitBuf) (m : Memory Byte) (a : Nat) :
    (s.setBytes b m).readBit c a = s.readBit c a := by
  simp [State.readBit]

@[simp] theorem State.readBit_setBits_other (s : State) {b c : BitBuf} (m : Memory Bit) (a : Nat) (h : c ≠ b) :
    (s.setBits b m).readBit c a = s.readBit c a := by
  simp [State.readBit, State.bitsOf_setBits_other s b m h]

@[simp] theorem State.readByte_setBits (s : State) (b : BitBuf) (c : ByteBuf) (m : Memory Bit) (a : Nat) :
    (s.setBits b m).readByte c a = s.readByte c a := by
  simp [State.readByte]

/-- Reading a byte buffer after the sequence `vs` was written from index 0. -/
theorem State.readByte_writeBytes (s : State) (b : ByteBuf) (vs : List Byte) (a : Nat) :
    (s.writeBytes b vs).readByte b a = if h : a < vs.length then vs[a] else s.readByte b a := by
  simp only [State.readByte, State.writeBytes, State.bytes_setBytes_same, Memory.get?_writeSeq, State.setBytes_epoch]
  split_ifs with h1 h2 h2
  · simp [h2]
  · omega
  · omega
  · rfl

/-- Reading a bit buffer after the sequence `vs` was written from index 0. -/
theorem State.readBit_writeBits (s : State) (b : BitBuf) (vs : Bits) (a : Nat) :
    (s.writeBits b vs).readBit b a = if h : a < vs.length then vs[a] else s.readBit b a := by
  simp only [State.readBit, State.writeBits, State.bitsOf_setBits_same, Memory.get?_writeSeq, State.setBits_epoch]
  split_ifs with h1 h2 h2
  · simp [h2]
  · omega
  · omega
  · rfl

/-- Reading a byte buffer after one element was written. -/
theorem State.readByte_writeByte (s : State) (b : ByteBuf) (i a : Nat) (v : Byte) :
    (s.writeByte b i v).readByte b a = if a = i then v else s.readByte b a := by
  simp only [State.readByte, State.writeByte, State.bytes_setBytes_same, Memory.get?_write, State.setBytes_epoch]
  split_ifs <;> rfl

/-- Reading a bit buffer after one element was written. -/
theorem State.readBit_writeBit (s : State) (b : BitBuf) (i a : Nat) (v : Bit) :
    (s.writeBit b i v).readBit b a = if a = i then v else s.readBit b a := by
  simp only [State.readBit, State.writeBit, State.bitsOf_setBits_same, Memory.get?_write, State.setBits_epoch]
  split_ifs <;> rfl

@[simp] theorem State.length_readBytes (s : State) (b : ByteBuf) (n : Nat) : (s.readBytes b n).length = n := by
  simp [State.readBytes]

@[simp] theorem State.length_readBits (s : State) (b : BitBuf) (n : Nat) : (s.readBits b n).length = n := by
  simp [State.readBits]

@[simp] theorem State.getElem_readBytes (s : State) (b : ByteBuf) (n i : Nat) (h : i < (s.readBytes b n).length) :
    (s.readBytes b n)[i] = s.readByte b i := by
  simp [State.readBytes]

@[simp] theorem State.getElem_readBits (s : State) (b : BitBuf) (n i : Nat) (h : i < (s.readBits b n).length) :
    (s.readBits b n)[i] = s.readBit b i := by
  simp [State.readBits]

@[simp] theorem State.length_payload (s : State) : s.payload.length = s.plen.toNat := by
  simp [State.payload]

@[simp] theorem State.length_bitstream (s : State) : s.bitstream.length = s.blen.toNat := by
  simp [State.bitstream]

/-- Nothing changes when nothing does. -/
theorem State.hostSideKept_refl (s : State) : s.hostSideKept s := ⟨rfl, rfl, rfl, rfl, rfl, rfl, rfl⟩

/-- Taking an exception on a machine is what the claims call taking it (spec/60_exceptions.md R94). -/
theorem takesException_raise (s : State) (e : Exception) {req avail : Nat} (h1 : req < 2 ^ 36) (h2 : avail < 2 ^ 36) :
    takesException s (.next (s.raise e req avail)) e req avail := by
  refine ⟨_, rfl, State.report_reports s _ 0 0 req avail (by norm_num) (by norm_num) h1 h2,
    State.report_hostSideKept .., ?_, ?_⟩ <;> simp [State.inputsKept, State.outputsKept, State.byteBufKept, State.bitBufKept, State.raise]

/-- A command within a platform's limit goes on. -/
theorem withinBytes_of_le {pf : Config.Platform} {b : ByteBuf} {n : Nat} {o : Host.Outcome State Fault Refusal}
    (h : n ≤ pf.byteLimit b) : withinBytes pf b n o = o := if_pos h

/-- A command within a platform's limit goes on. -/
theorem withinBits_of_le {pf : Config.Platform} {b : BitBuf} {n : Nat} {o : Host.Outcome State Fault Refusal}
    (h : n ≤ pf.bitLimit b) : withinBits pf b n o = o := if_pos h

/-- A command beyond a platform's limit is refused under the name of the buffer (spec/70_reset_and_hazards.md R114). -/
theorem withinBytes_of_gt {pf : Config.Platform} {b : ByteBuf} {n : Nat} (o : Host.Outcome State Fault Refusal)
    (h : ¬ n ≤ pf.byteLimit b) : withinBytes pf b n o = .refused (.byteLimit b) := if_neg h

/-- The same for a bit buffer. -/
theorem withinBits_of_gt {pf : Config.Platform} {b : BitBuf} {n : Nat} (o : Host.Outcome State Fault Refusal)
    (h : ¬ n ≤ pf.bitLimit b) : withinBits pf b n o = .refused (.bitLimit b) := if_neg h

/-- A command beyond a platform's limit has no next state. -/
theorem withinBytes_next {pf : Config.Platform} {b : ByteBuf} {n : Nat} {o : Host.Outcome State Fault Refusal} {t : State}
    (h : withinBytes pf b n o = .next t) : n ≤ pf.byteLimit b ∧ o = .next t := by
  unfold withinBytes at h
  split_ifs at h with hn
  exact ⟨hn, h⟩

/-- A command beyond a platform's limit has no next state. -/
theorem withinBits_next {pf : Config.Platform} {b : BitBuf} {n : Nat} {o : Host.Outcome State Fault Refusal} {t : State}
    (h : withinBits pf b n o = .next t) : n ≤ pf.bitLimit b ∧ o = .next t := by
  unfold withinBits at h
  split_ifs at h with hn
  exact ⟨hn, h⟩

end Sys2Proof.Machine
end

