-- ==== Sys2Proof/Laws/Walk.lean ====
section
/-! SUPPORT. What one carrier, one pixel and the whole walk of `EMBED` do to the cursor and to the output
(spec/44_embed.md R75, R78; spec/43_channel_mux.md R70 to R73). -/

namespace Sys2Proof.Machine

/-- Where the cursor stands before carrier `q`: at `q k`, or at the frame's end once the frame is used up. -/
def cursorAt (F : Bits) (k : LsbWidth) (q : Nat) : Nat := min F.length (q * k.bits)

/-- The output sample of carrier `q` whose input sample is `x`. -/
def carrierOut (F : Bits) (k : LsbWidth) (q : Nat) (x : Sample) : Sample :=
  if q * k.bits < F.length then ins x (group F (q * k.bits) k) k else x

/-- The output sample at pixel `p`, channel `c`. -/
def pixelOut (F : Bits) (k : LsbWidth) (p c : Nat) (x : Sample) : Sample :=
  if c < 3 then carrierOut F k (3 * p + c) x else x

/-- One carrier: the cursor moves on to the next carrier's place and the output sample is written. -/
theorem embedCarrier_eq (F : Bits) (k : LsbWidth) (hF : k.bits ∣ F.length) (q a : Nat) (x : Sample) (m : Memory Sample) :
    embedCarrier k F a x ⟨cursorAt F k q, m⟩ = ⟨cursorAt F k (q + 1), m.write a (carrierOut F k q x)⟩ := by
  have hk := k.bits_pos
  unfold embedCarrier cursorAt carrierOut
  obtain ⟨n, hn⟩ := hF
  by_cases h : q * k.bits < F.length
  · have hq : (q + 1) * k.bits ≤ F.length := by
      rw [hn, Nat.mul_comm k.bits n] at h ⊢
      exact Nat.mul_le_mul_right _ (Nat.lt_of_mul_lt_mul_right h)
    have e1 : min F.length (q * k.bits) = q * k.bits := by omega
    have e2 : min F.length ((q + 1) * k.bits) = q * k.bits + k.bits := by rw [Nat.add_mul, Nat.one_mul] at hq ⊢; omega
    simp only [e1, e2, if_pos h]
  · have e1 : min F.length (q * k.bits) = F.length := by omega
    have e2 : min F.length ((q + 1) * k.bits) = F.length := by rw [Nat.add_mul]; omega
    simp only [e1, e2, if_neg h, lt_irrefl, if_false]

/-- A list of writes, each of the value `v` gives for its index. -/
theorem Memory.get?_foldl_write {α β : Type} (l : List β) (g : β → Nat) (v : Nat → α) (m : Memory α) (a : Nat) :
    (l.foldl (fun m c => m.write (g c) (v (g c))) m).get? a = if a ∈ l.map g then some (v a) else m.get? a := by
  induction l generalizing m with
  | nil => simp
  | cons c l ih =>
    rw [List.foldl_cons, ih, Memory.get?_write]
    by_cases h1 : a ∈ l.map g
    · simp only [h1, if_true, List.map_cons, List.mem_cons, or_true]
    · by_cases h2 : a = g c
      · subst h2; simp [h1]
      · simp [h1, h2]

theorem Memory.wf_foldl_write {α β : Type} {n : Nat} (l : List β) (g : β → Nat) (v : β → α) {m : Memory α}
    (h : Memory.wf n m) (hg : ∀ c ∈ l, g c < n) : Memory.wf n (l.foldl (fun m c => m.write (g c) (v c)) m) := by
  induction l generalizing m with
  | nil => exact h
  | cons c l ih => exact ih (Memory.wf_write h (hg c (by simp)) _) fun d hd => hg d (by simp [hd])

theorem mem_passChannels (nch c : Nat) : c ∈ passChannels nch ↔ 3 ≤ c ∧ c < nch := by
  simp [passChannels, Config.ncarry, List.mem_range'_1]; omega

/-- One pixel in one equation: three carriers, then the further channels. -/
theorem embedPixel_eq (F : Bits) (k : LsbWidth) (hF : k.bits ∣ F.length) (nch : Nat) (x : Nat → Sample) (p : Nat)
    (m : Memory Sample) :
    embedPixel k nch F x ⟨cursorAt F k (3 * p), m⟩ p =
      ⟨cursorAt F k (3 * (p + 1)),
        (passChannels nch).foldl (fun m c => m.write (saddr nch p c) (x (saddr nch p c)))
          (((m.write (saddr nch p 0) (carrierOut F k (3 * p) (x (saddr nch p 0)))).write (saddr nch p 1)
            (carrierOut F k (3 * p + 1) (x (saddr nch p 1)))).write (saddr nch p 2)
            (carrierOut F k (3 * p + 2) (x (saddr nch p 2))))⟩ := by
  have hc : carryingChannels = [0, 1, 2] := rfl
  unfold embedPixel
  simp only [hc, List.foldl_cons, List.foldl_nil, embedCarrier_eq F k hF]
  rfl

/-- One pixel: the cursor, the pixel's samples, and nothing else. -/
theorem embedPixel_spec (F : Bits) (k : LsbWidth) (hF : k.bits ∣ F.length) {nch : Nat} (hn : 3 ≤ nch) (x : Nat → Sample)
    (p : Nat) (m : Memory Sample) (a : Nat) :
    (embedPixel k nch F x ⟨cursorAt F k (3 * p), m⟩ p).out.get? a =
      if p * nch ≤ a ∧ a < (p + 1) * nch then some (pixelOut F k p (a - p * nch) (x a)) else m.get? a := by
  have hmem : a ∈ (passChannels nch).map (saddr nch p) ↔ ∃ c, (3 ≤ c ∧ c < nch) ∧ p * nch + c = a := by
    simp only [List.mem_map, mem_passChannels, saddr]
  have hs : (p + 1) * nch = p * nch + nch := by ring
  rw [embedPixel_eq F k hF, Memory.get?_foldl_write _ (saddr nch p) x, hs]
  simp only [saddr, Memory.get?_write, pixelOut]
  by_cases h : ∃ c, (3 ≤ c ∧ c < nch) ∧ p * nch + c = a
  · obtain ⟨c, ⟨h3, hc⟩, rfl⟩ := h
    have e : p * nch + c - p * nch = c := by omega
    have hx : ∃ d, (3 ≤ d ∧ d < nch) ∧ p * nch + d = p * nch + c := ⟨c, ⟨h3, hc⟩, rfl⟩
    rw [if_pos (hmem.2 hx), if_pos ⟨by omega, by omega⟩, e, if_neg (by omega)]
  · rw [if_neg (mt hmem.1 h)]
    have hout : ∀ c, a = p * nch + c → c < nch → c < 3 := by
      intro c hac hcn
      by_contra h3
      exact h ⟨c, ⟨by omega, hcn⟩, hac.symm⟩
    by_cases hin : p * nch ≤ a ∧ a < p * nch + nch
    · rw [if_pos hin]
      obtain ⟨c, rfl⟩ : ∃ c, a = p * nch + c := ⟨a - p * nch, by omega⟩
      have h3 := hout c rfl (by omega)
      have e : p * nch + c - p * nch = c := by omega
      rw [e, if_pos h3]
      rcases (by omega : c = 0 ∨ c = 1 ∨ c = 2) with rfl | rfl | rfl <;> simp
    · rw [if_neg hin, if_neg (by omega), if_neg (by omega), if_neg (by omega)]

/-- The walk over `n` pixels: where the cursor ends and what the output holds. -/
theorem embedWalk_spec (F : Bits) (k : LsbWidth) (hF : k.bits ∣ F.length) {nch : Nat} (hn : 3 ≤ nch) (x : Nat → Sample)
    (n : Nat) (m : Memory Sample) :
    (embedWalk k nch F x n m).cur = cursorAt F k (3 * n) ∧
      ∀ a, (embedWalk k nch F x n m).out.get? a =
        if a < n * nch then some (pixelOut F k (a / nch) (a % nch) (x a)) else m.get? a := by
  induction n with
  | zero => exact ⟨by simp [embedWalk, cursorAt], fun a => by simp [embedWalk]⟩
  | succ n ih =>
    have e : embedWalk k nch F x (n + 1) m = embedPixel k nch F x (embedWalk k nch F x n m) n := by
      simp [embedWalk, List.range_succ]
    have ew : embedWalk k nch F x n m = ⟨cursorAt F k (3 * n), (embedWalk k nch F x n m).out⟩ := by
      rw [← ih.1]
    rw [e, ew]
    refine ⟨by rw [embedPixel_eq F k hF], fun a => ?_⟩
    rw [embedPixel_spec F k hF hn, ih.2 a, Nat.succ_mul]
    by_cases h : n * nch ≤ a ∧ a < n * nch + nch
    · have hd : a / nch = n := Nat.div_eq_of_lt_le h.1 (by rw [Nat.succ_mul]; exact h.2)
      have hm : a % nch = a - n * nch := by
        have := Nat.div_add_mod a nch
        rw [hd, Nat.mul_comm] at this
        omega
      rw [if_pos h, if_pos h.2, hd, hm]
    · rw [if_neg h]
      split_ifs <;> first | rfl | omega

/-- The output stays in canonical form. -/
theorem embedWalk_wf (F : Bits) (k : LsbWidth) (hF : k.bits ∣ F.length) {nch : Nat} (hn : 3 ≤ nch) (x : Nat → Sample)
    (n : Nat) {N : Nat} (hN : n * nch ≤ N) {m : Memory Sample} (h : Memory.wf N m) :
    Memory.wf N (embedWalk k nch F x n m).out := by
  induction n with
  | zero => simpa [embedWalk] using h
  | succ n ih =>
    have e : embedWalk k nch F x (n + 1) m = embedPixel k nch F x (embedWalk k nch F x n m) n := by
      simp [embedWalk, List.range_succ]
    have ew : embedWalk k nch F x n m = ⟨cursorAt F k (3 * n), (embedWalk k nch F x n m).out⟩ := by
      rw [← (embedWalk_spec F k hF hn x n m).1]
    rw [Nat.succ_mul] at hN
    rw [e, ew, embedPixel_eq F k hF]
    refine Memory.wf_foldl_write _ (saddr nch n) _ (Memory.wf_write (Memory.wf_write (Memory.wf_write (ih (by omega)) ?_ _) ?_ _) ?_ _) ?_
    · simp only [saddr]; omega
    · simp only [saddr]; omega
    · simp only [saddr]; omega
    · intro c hc
      rw [mem_passChannels] at hc
      simp only [saddr]; omega

end Sys2Proof.Machine
end

