-- ==== Sys2Proof/Laws/Commands.lean ====
section
/-! SUPPORT. One lemma per command and per shared operation that says once what it can do; later proofs cite these and never
unfold a command. -/

namespace Sys2Proof.Machine

/-! The ranges of R27 never reach past a whole buffer (spec/10_state.md R18, R19). -/

theorem plen_le (s : State) : s.plen.toNat ≤ ByteBuf.size .pin := by
  have := s.plen.isLt
  simp only [ByteBuf.size]; omega

theorem boutRange_le (s : State) : 8 * s.plen.toNat ≤ BitBuf.size .bout := by
  have := s.plen.isLt
  simp only [BitBuf.size]; omega

theorem blen_le (s : State) : s.blen.toNat ≤ BitBuf.size .bin := by
  have := s.blen.isLt
  simp only [BitBuf.size]; omega

theorem poutRange_le (s : State) : s.blen.toNat / 8 ≤ ByteBuf.size .pout := by
  have := s.blen.isLt
  simp only [ByteBuf.size]; omega

theorem xinRange_le (s : State) (nch : BitVec 3) : s.npix.toNat * nch.toNat ≤ ByteBuf.size .xin := by
  have h1 := s.npix.isLt
  have h2 := nch.isLt
  simp only [ByteBuf.size]
  calc s.npix.toNat * nch.toNat ≤ (2 ^ 32 - 1) * 7 := Nat.mul_le_mul (by omega) (by omega)
    _ = 7 * (2 ^ 32 - 1) := by norm_num

theorem three_le_of_legal {nch : BitVec 3} (h : nchLegal nch = true) : 3 ≤ nch.toNat := by
  simpa [nchLegal, Config.ncarry, decide_eq_true_eq] using of_decide_eq_true h

theorem carrierReach_le (s : State) (nch : BitVec 3) (h : nchLegal nch = true) :
    carrierReach nch.toNat s.npix.toNat ≤ s.npix.toNat * nch.toNat := by
  have h3 := three_le_of_legal h
  unfold carrierReach saddr Config.ncarry
  split_ifs with h0
  · simp
  · obtain ⟨n, hn⟩ := Nat.exists_eq_succ_of_ne_zero h0
    rw [hn, Nat.succ_mul, Nat.succ_sub_one]
    omega

/-- Reaching as far as the last carrier is reaching every carrier (spec/20_memory.md R27). -/
theorem carrierReach_le_iff (nch npix n : Nat) :
    carrierReach nch npix ≤ n ↔ ∀ p < npix, ∀ c < 3, p * nch + c < n := by
  unfold carrierReach saddr Config.ncarry
  split_ifs with h0
  · exact ⟨fun _ p hp => by omega, fun _ => Nat.zero_le _⟩
  · refine ⟨fun h p hp c hc => ?_, fun h => ?_⟩
    · have : p * nch ≤ (npix - 1) * nch := Nat.mul_le_mul_right _ (by omega)
      omega
    · have := h (npix - 1) (by omega) 2 (by omega)
      omega

theorem required_lt (s : State) : s.required < 2 ^ 33 := by
  have := s.plen.isLt
  simp only [State.required, Config.hdrW]; omega

theorem available_lt (s : State) (k : LsbWidth) : s.available k < 2 ^ 35 := by
  have h1 := s.npix.isLt
  have h2 := k.bits_le
  simp only [State.available, available, Config.ncarry]
  calc s.npix.toNat * 3 * k.bits ≤ (2 ^ 32 - 1) * 3 * 2 :=
        Nat.mul_le_mul (Nat.mul_le_mul (by omega) (le_refl _)) h2
    _ < 2 ^ 35 := by norm_num

/-- A header of at most 32 bits declares less than 2^32 (spec/41_length_codec.md R59). -/
theorem dec32_lt (S : Bits) : dec32 (slice S 0 32) < 2 ^ 32 := by
  refine lt_of_lt_of_le (msbNumber_lt _) (Nat.pow_le_pow_right (by norm_num) ?_)
  simp

@[simp] theorem length_frame_payload (s : State) : (frame s.payload).length = s.required := by
  simp [State.required, Config.hdrW]

theorem bits_dvd_frame (s : State) (k : LsbWidth) : k.bits ∣ (frame s.payload).length := by
  rw [length_frame]; exact k.bits_dvd _

theorem wholeBuffers_platformWith (p : FormatPolicy) : wholeBuffers (Config.platformWith p) := ⟨fun _ => rfl, fun _ => rfl⟩

/-- `exec` is the command on this hardware's platform. -/
theorem exec_eq (i : Instr) (s : State) : exec i s = commandOn Config.platform i s := by cases i <;> rfl

section commands
variable {pf : Config.Platform} (hw : wholeBuffers pf) (s : State)
include hw

/-- `BYTES_TO_BITS`: the one thing it does (spec/40_bit_codec.md R52). -/
theorem bytesToBitsOn_eq :
    bytesToBitsOn pf s = .next ((s.writeBits .bout (ser s.payload)).report .ok 0 (8 * s.plen.toNat) 0 0) := by
  rw [bytesToBitsOn, withinBytes_of_le (by rw [hw.1]; exact plen_le s),
    withinBits_of_le (by rw [hw.2]; exact boutRange_le s)]

/-- `BITS_TO_BYTES`: it deserialises, or takes FormatError(UNALIGNED) (spec/40_bit_codec.md R53). -/
theorem bitsToBytesOn_eq :
    bitsToBytesOn pf s =
      if s.blen.toNat % 8 ≠ 0 ∧ pf.policy = .strict then .next (s.raise (.format .unaligned) 0 0)
      else .next ((s.writeBytes .pout (desGroups s.bitstream)).report .ok (s.blen.toNat / 8) 0 0 0) := by
  rw [bitsToBytesOn, withinBits_of_le (by rw [hw.2]; exact blen_le s),
    withinBytes_of_le (by rw [hw.1]; exact poutRange_le s), des, State.length_bitstream]
  split_ifs <;> rfl

/-- `EMBED` with a legal NCH: it takes CapacityError or writes the walk's output (spec/44_embed.md R75). -/
theorem embedOn_eq (k : LsbWidth) {nch : BitVec 3} (h : nchLegal nch = true) :
    embedOn pf k nch s =
      if s.required > s.available k then .next (s.raise .capacity s.required (s.available k))
      else .next ((s.setBytes .xout
        (embedWalk k nch.toNat (frame s.payload) (s.readByte .xin) s.npix.toNat s.xout).out).report .ok 0 0
          s.required (s.available k)) := by
  rw [embedOn, if_pos h, withinBytes_of_le (by rw [hw.1]; exact plen_le s),
    withinBytes_of_le (by rw [hw.1]; exact xinRange_le s nch),
    withinBytes_of_le (by rw [hw.1]; exact xinRange_le s nch)]

/-- `EXTRACT` with a legal NCH looks at the collected stream (spec/45_extract.md R82). -/
theorem extractOn_eq (k : LsbWidth) {nch : BitVec 3} (h : nchLegal nch = true) :
    extractOn pf k nch s = extractFrom pf (s.collected k nch.toNat) s := by
  rw [extractOn, if_pos h, withinBytes_of_le]
  rw [hw.1]
  exact le_trans (carrierReach_le s nch h) (xinRange_le s nch)

omit hw in
/-- What `EXTRACT` does with a stream too short for a header (spec/45_extract.md R84). -/
theorem extractFrom_short (S : Bits) (h : S.length < 32) :
    extractFrom pf S s = .next (s.raise (.format .headerShort) 32 S.length) := if_pos h

/-- What `EXTRACT` does with a stream that has a header, case by case (spec/45_extract.md R85 to R87). -/
theorem extractFrom_eq (S : Bits) (h : 32 ≤ S.length) (hS : S.length < 2 ^ 35) :
    extractFrom pf S s =
      if pf.policy = .strict ∧ 32 + dec32 (slice S 0 32) > S.length then
        .next (s.raise (.format .bodyShort) (32 + dec32 (slice S 0 32)) S.length)
      else if pf.policy = .strict ∧ dec32 (slice S 0 32) % 8 ≠ 0 then
        .next (s.raise (.format .unaligned) (32 + dec32 (slice S 0 32)) S.length)
      else
        .next ((s.writeBytes .pout
          (desGroups (slice S 32 (min (32 + dec32 (slice S 0 32)) S.length)))).report .ok
            ((min (32 + dec32 (slice S 0 32)) S.length - 32) / 8) 0 (32 + dec32 (slice S 0 32)) S.length) := by
  have hL := dec32_lt S
  rw [extractFrom, if_neg (by simp [Config.hdrW]; omega)]
  simp only [Config.hdrW] at *
  generalize dec32 (slice S 0 32) = L at *
  have hlen : ∀ m, 32 ≤ m → m ≤ S.length → (slice S 32 m).length = m - 32 := by intro m _ _; simp; omega
  have hpout : ∀ m, m ≤ 32 + L → (slice S 32 m).length / 8 ≤ pf.byteLimit .pout := by
    intro m hm
    rw [hw.1]
    simp only [length_slice, ByteBuf.size]
    omega
  cases hp : pf.policy
  · by_cases h1 : 32 + L > S.length
    · have e : payloadBits .strict S L = .error .bodyShort := if_pos h1
      simp only [e, true_and, if_pos h1]
    · by_cases h2 : L % 8 ≠ 0
      · have e : payloadBits .strict S L = .error .unaligned := (if_neg h1).trans (if_pos h2)
        simp only [e, true_and, if_neg h1, if_pos h2]
      · have e : payloadBits .strict S L = .ok (slice S 32 (32 + L)) := (if_neg h1).trans (if_neg h2)
        have em : min (32 + L) S.length = 32 + L := by omega
        simp only [e, true_and, if_neg h1, if_neg h2, em]
        rw [withinBytes_of_le (hpout _ (le_refl _)), hlen _ (by omega) (by omega)]
  · have e : payloadBits .lenient S L = .ok (slice S 32 (min (32 + L) S.length)) := rfl
    simp only [e, reduceCtorEq, false_and, if_false]
    rw [withinBytes_of_le (hpout _ (by omega)), hlen _ (by omega) (by omega)]

end commands

/-- What any command can do when it answers a next state: take an exception, or report `OK` after writing its one output
buffer. -/
theorem commandOn_next {pf : Config.Platform} {i : Instr} {s t : State} (h : commandOn pf i s = .next t) :
    (∃ e req avail, t = s.raise e req avail) ∨
    (i = .bytesToBits ∧ t = (s.writeBits .bout (ser s.payload)).report .ok 0 (8 * s.plen.toNat) 0 0) ∨
    (∃ D req avail, (i = .bitsToBytes ∨ ∃ k nch, i = .extract k nch) ∧ D.length < 2 ^ 29 ∧
      D.length ≤ pf.byteLimit .pout ∧ t = (s.writeBytes .pout D).report .ok D.length 0 req avail) ∨
    (∃ k nch, i = .embed k nch ∧ nchLegal nch = true ∧ t = (s.setBytes .xout
        (embedWalk k nch.toNat (frame s.payload) (s.readByte .xin) s.npix.toNat s.xout).out).report .ok 0 0
          s.required (s.available k)) := by
  have hE : ∀ k nch, embedOn pf k nch s = .next t → (∃ e req avail, t = s.raise e req avail) ∨
      (nchLegal nch = true ∧ t = (s.setBytes .xout
        (embedWalk k nch.toNat (frame s.payload) (s.readByte .xin) s.npix.toNat s.xout).out).report .ok 0 0
          s.required (s.available k)) := by
    intro k nch h
    unfold embedOn at h
    split_ifs at h with hn hc
    · obtain ⟨-, h⟩ := withinBytes_next h
      obtain ⟨-, h⟩ := withinBytes_next h
      obtain ⟨-, h⟩ := withinBytes_next h
      cases h; exact .inl ⟨_, _, _, rfl⟩
    · obtain ⟨-, h⟩ := withinBytes_next h
      obtain ⟨-, h⟩ := withinBytes_next h
      obtain ⟨-, h⟩ := withinBytes_next h
      cases h; exact .inr ⟨hn, rfl⟩
    · cases h; exact .inl ⟨_, _, _, rfl⟩
  have hX : ∀ k nch, extractOn pf k nch s = .next t → (∃ e req avail, t = s.raise e req avail) ∨
      (∃ D req avail, D.length < 2 ^ 29 ∧ D.length ≤ pf.byteLimit .pout ∧
        t = (s.writeBytes .pout D).report .ok D.length 0 req avail) := by
    intro k nch h
    unfold extractOn at h
    split_ifs at h with hn
    · obtain ⟨-, h⟩ := withinBytes_next h
      generalize s.collected k nch.toNat = S at h
      have hL := dec32_lt S
      unfold extractFrom at h
      split_ifs at h with hs
      · cases h; exact .inl ⟨_, _, _, rfl⟩
      · simp only at h
        split at h
        · cases h; exact .inl ⟨_, _, _, rfl⟩
        · rename_i B hB
          obtain ⟨hl, h⟩ := withinBytes_next h
          cases h
          refine .inr ⟨desGroups B, _, _, ?_, by simpa using hl, by rw [length_desGroups]⟩
          have hlen : B.length ≤ dec32 (slice S 0 32) := by
            unfold payloadBits at hB
            split at hB
            · split_ifs at hB; cases hB; simp [Config.hdrW]
            · cases hB; simp [Config.hdrW]; omega
          rw [length_desGroups]; omega
    · cases h; exact .inl ⟨_, _, _, rfl⟩
  cases i with
  | bytesToBits =>
    obtain ⟨-, h⟩ := withinBytes_next (show bytesToBitsOn pf s = _ from h)
    obtain ⟨-, h⟩ := withinBits_next h
    cases h; exact .inr (.inl ⟨rfl, rfl⟩)
  | bitsToBytes =>
    obtain ⟨-, h⟩ := withinBits_next (show bitsToBytesOn pf s = _ from h)
    obtain ⟨hl, h⟩ := withinBytes_next h
    rcases des_cases pf.policy s.bitstream with ⟨hd, -⟩ | ⟨hd, -⟩
    · rw [hd] at h
      cases h
      have hlen : (desGroups s.bitstream).length = s.blen.toNat / 8 := by simp
      have := s.blen.isLt
      exact .inr (.inr (.inl ⟨desGroups s.bitstream, 0, 0, .inl rfl, by omega, by omega, by rw [hlen]⟩))
    · rw [hd] at h
      cases h; exact .inl ⟨_, _, _, rfl⟩
  | embedK1 nch =>
    rcases hE .k1 nch h with h | ⟨hn, h⟩
    · exact .inl h
    · exact .inr (.inr (.inr ⟨.k1, nch, rfl, hn, h⟩))
  | embedK2 nch =>
    rcases hE .k2 nch h with h | ⟨hn, h⟩
    · exact .inl h
    · exact .inr (.inr (.inr ⟨.k2, nch, rfl, hn, h⟩))
  | extractK1 nch =>
    rcases hX .k1 nch h with h | ⟨D, r, a, hD, hl, h⟩
    · exact .inl h
    · exact .inr (.inr (.inl ⟨D, r, a, .inr ⟨.k1, nch, rfl⟩, hD, hl, h⟩))
  | extractK2 nch =>
    rcases hX .k2 nch h with h | ⟨D, r, a, hD, hl, h⟩
    · exact .inl h
    · exact .inr (.inr (.inl ⟨D, r, a, .inr ⟨.k2, nch, rfl⟩, hD, hl, h⟩))

/-- What the walk leaves at a sample, read from the state: the closed form of a successful `EMBED` (spec/44_embed.md R78). -/
theorem readByte_embedded (s : State) (k : LsbWidth) {nch : Nat} (hn : 3 ≤ nch) (a : Nat) :
    (s.setBytes .xout (embedWalk k nch (frame s.payload) (s.readByte .xin) s.npix.toNat s.xout).out).readByte .xout a =
      if a < s.npix.toNat * nch then pixelOut (frame s.payload) k (a / nch) (a % nch) (s.readByte .xin a)
      else s.readByte .xout a := by
  simp only [State.readByte, State.bytes_setBytes_same, State.setBytes_epoch]
  rw [(embedWalk_spec _ k (bits_dvd_frame s k) hn _ _ _).2 a]
  split_ifs <;> rfl

end Sys2Proof.Machine
end

