-- ==== Sys2Proof/Laws/HostPort.lean ====
section
/-! SUPPORT. What issuing a word and a host action can do, and the decoder's answers in terms of `Instr.embed` and
`Instr.extract`. -/

namespace Sys2Proof.Machine

/-- A word that decodes is its command, with the word in `CMD` (spec/10_state.md R12), however commands are performed. -/
theorem issueWith_of_ok {run : Instr → State → Host.Outcome State Fault Refusal} {w : Byte} {i : Instr} (h : decode w = .ok i)
    (s : State) : issueWith run w s = run i { s with cmd := w } := by
  simp only [issueWith, h]

/-- A word that does not decode takes ParamError (spec/60_exceptions.md R93), however commands are performed. -/
theorem issueWith_of_error {run : Instr → State → Host.Outcome State Fault Refusal} {w : Byte} {c : ParamCause}
    (h : decode w = .error c) (s : State) :
    issueWith run w s = .next (State.raise { s with cmd := w } (.param c) 0 0) := by
  simp only [issueWith, h]

theorem issue_of_ok {w : Byte} {i : Instr} (h : decode w = .ok i) (s : State) :
    issue w s = exec i { s with cmd := w } := issueWith_of_ok h s

theorem issue_of_error {w : Byte} {c : ParamCause} (h : decode w = .error c) (s : State) :
    issue w s = .next (State.raise { s with cmd := w } (.param c) 0 0) := issueWith_of_error h s

theorem issueOn_of_ok {pf : Config.Platform} {w : Byte} {i : Instr} (h : decode w = .ok i) (s : State) :
    issueOn pf w s = commandOn pf i { s with cmd := w } := issueWith_of_ok h s

theorem issueOn_of_error {pf : Config.Platform} {w : Byte} {c : ParamCause} (h : decode w = .error c) (s : State) :
    issueOn pf w s = .next (State.raise { s with cmd := w } (.param c) 0 0) := issueWith_of_error h s

/-- Issuing a word on this hardware's platform is issuing it on this hardware. -/
theorem issueOn_platform : issueOn Config.platform = issue := by
  have h : commandOn Config.platform = exec := funext fun i => funext fun s => (exec_eq i s).symm
  unfold issueOn issue
  rw [h]

/-- A host action on this hardware's platform runs `exec` on a `CMD` write. -/
theorem hostAct_platform (op : HostOp) (s : State) :
    hostAct Config.platform op s = hostActWith issue Config.platform op s := by
  rw [hostAct, issueOn_platform]

/-- A `CMD` write is the issuing of its word. -/
@[simp] theorem hostAct_writeCmd (pf : Config.Platform) (w : Byte) (s : State) :
    hostAct pf (.writeReg .cmd w) s = issueOn pf w s := rfl

/-- With nothing left for the host to do a step keeps the state. -/
theorem step_idle {s : State} (h : s.host = []) : step s = .next s := by
  simp only [step, hostStep, h]

/-- A step is the host's next action (spec/10_state.md R16). -/
theorem step_action {s : State} {op : HostOp} {rest : List HostOp} (h : s.host = op :: rest) :
    step s = hostAct Config.platform op { s with host := rest } := by
  rw [hostAct_platform]
  simp only [step, hostStep, h]

/-- What issuing a word can do. -/
theorem issue_cases (w : Byte) (s : State) :
    (∃ i, decode w = .ok i ∧ issue w s = exec i { s with cmd := w }) ∨
    (∃ c, decode w = .error c ∧ issue w s = .next (State.raise { s with cmd := w } (.param c) 0 0)) := by
  cases h : decode w with
  | ok i => exact .inl ⟨i, rfl, issue_of_ok h s⟩
  | error c => exact .inr ⟨c, rfl, issue_of_error h s⟩

/-- Every instruction is one of the two Bit Codec commands, an `EMBED` or an `EXTRACT`. -/
theorem Instr_cases (i : Instr) :
    i = .bytesToBits ∨ i = .bitsToBytes ∨ (∃ k nch, i = .embed k nch) ∨ (∃ k nch, i = .extract k nch) := by
  cases i with
  | bytesToBits => exact .inl rfl
  | bitsToBytes => exact .inr (.inl rfl)
  | embedK1 nch => exact .inr (.inr (.inl ⟨.k1, nch, rfl⟩))
  | embedK2 nch => exact .inr (.inr (.inl ⟨.k2, nch, rfl⟩))
  | extractK1 nch => exact .inr (.inr (.inr ⟨.k1, nch, rfl⟩))
  | extractK2 nch => exact .inr (.inr (.inr ⟨.k2, nch, rfl⟩))

@[simp] theorem commandOn_embed (pf : Config.Platform) (k : LsbWidth) (nch : BitVec 3) (s : State) :
    commandOn pf (.embed k nch) s = embedOn pf k nch s := by cases k <;> rfl

@[simp] theorem commandOn_extract (pf : Config.Platform) (k : LsbWidth) (nch : BitVec 3) (s : State) :
    commandOn pf (.extract k nch) s = extractOn pf k nch s := by cases k <;> rfl

theorem exec_embed (k : LsbWidth) (nch : BitVec 3) (s : State) :
    exec (.embed k nch) s = embedOn Config.platform k nch s := by rw [exec_eq, commandOn_embed]

theorem exec_extract (k : LsbWidth) (nch : BitVec 3) (s : State) :
    exec (.extract k nch) s = extractOn Config.platform k nch s := by rw [exec_eq, commandOn_extract]

theorem wholeBuffers_platform : wholeBuffers Config.platform := wholeBuffers_platformWith .strict

/-- A host access that goes on is inside the index range. -/
theorem accessByte_next {pf : Config.Platform} {b : ByteBuf} {i : Nat} {o : Host.Outcome State Fault Refusal} {t : State}
    (h : accessByte pf b i o = .next t) : i < b.size ∧ o = .next t := by
  unfold accessByte at h
  split_ifs at h with hi
  exact ⟨hi, (withinBytes_next h).2⟩

theorem accessBit_next {pf : Config.Platform} {b : BitBuf} {i : Nat} {o : Host.Outcome State Fault Refusal} {t : State}
    (h : accessBit pf b i o = .next t) : i < b.size ∧ o = .next t := by
  unfold accessBit at h
  split_ifs at h with hi
  exact ⟨hi, (withinBits_next h).2⟩

theorem accessByte_eq {b : ByteBuf} {i : Nat} (h : i < b.size) (o : Host.Outcome State Fault Refusal) :
    accessByte Config.platform b i o = o := by
  rw [accessByte, if_pos h]
  exact withinBytes_of_le h

theorem accessBit_eq {b : BitBuf} {i : Nat} (h : i < b.size) (o : Host.Outcome State Fault Refusal) :
    accessBit Config.platform b i o = o := by
  rw [accessBit, if_pos h]
  exact withinBits_of_le h

end Sys2Proof.Machine
end

