-- ==== Sys2Proof/Laws/PerInstr.lean ====
section
/-! SUPPORT. The laws made one instruction at a time. -/

namespace Sys2Proof.Laws

/-- The word an instruction encodes to lies in the instruction's own row of the opcode table (spec/30_encoding.md R44), the
constraint included, whenever the instruction is well formed. -/
def EncodeRow.Statement (i : Instr) : Prop := i.wellFormed = true → i.row.holds (encode i) = true

/-- `BYTES_TO_BITS`. -/
theorem EncodeRow.bytesToBits : EncodeRow.Statement .bytesToBits := fun _ => by decide

/-- `BITS_TO_BYTES`. -/
theorem EncodeRow.bitsToBytes : EncodeRow.Statement .bitsToBytes := fun _ => by decide

/-- `EMBED.K1`, at every NCH. -/
theorem EncodeRow.embedK1 (nch : BitVec 3) : EncodeRow.Statement (.embedK1 nch) := by
  unfold EncodeRow.Statement; revert nch; decide

/-- `EMBED.K2`, at every NCH. -/
theorem EncodeRow.embedK2 (nch : BitVec 3) : EncodeRow.Statement (.embedK2 nch) := by
  unfold EncodeRow.Statement; revert nch; decide

/-- `EXTRACT.K1`, at every NCH. -/
theorem EncodeRow.extractK1 (nch : BitVec 3) : EncodeRow.Statement (.extractK1 nch) := by
  unfold EncodeRow.Statement; revert nch; decide

/-- `EXTRACT.K2`, at every NCH. -/
theorem EncodeRow.extractK2 (nch : BitVec 3) : EncodeRow.Statement (.extractK2 nch) := by
  unfold EncodeRow.Statement; revert nch; decide

end Sys2Proof.Laws
end

