-- ==== Sys2Proof/Tests/Slice0.lean ====
section
/-! SUPPORT. The model's own tests. Expected results are those of spec/95_test_vectors.md (the vector's id stands in the comment) or
of the encodings and tables of the rules; and for every statement with hypotheses a state and operands that meet them. -/

namespace Sys2Proof.Tests

open Sys2Proof Sys2Proof.Machine

/-! ## Helpers -/

/-- A buffer with these elements written from index 0 up. -/
def loaded {α : Type} (vs : List α) : Memory α := vs.zipIdx.map fun v => (v.2, v.1)

/-- A bitstream from its digits, index 0 leftmost. -/
def digits (s : String) : Bits := s.toList.map (· == '1')

/-- Does the outcome have a next state that passes the check? -/
def nextIs (o : Host.Outcome State Fault Refusal) (P : State → Bool) : Bool :=
  match o with
  | .next t => P t
  | .fault _ => false
  | .refused _ => false

theorem exists_next {o : Host.Outcome State Fault Refusal} {P : State → Bool} (h : nextIs o P = true) :
    ∃ t, o = .next t ∧ P t = true := by
  cases o with
  | next t => exact ⟨t, rfl, h⟩
  | fault r => cases h
  | refused r => cases h

theorem exists_such {o : Host.Outcome State Fault Refusal} {P : State → Prop} [DecidablePred P]
    (h : nextIs o (fun t => decide (P t)) = true) : ∃ t, o = .next t ∧ P t := by
  obtain ⟨t, ht, hp⟩ := exists_next h
  exact ⟨t, ht, of_decide_eq_true hp⟩

theorem exists_ok {o : Host.Outcome State Fault Refusal} (h : nextIs o (fun t => t.status == Status.ok.word) = true) :
    ∃ t, o = .next t ∧ t.status = Status.ok.word := by
  obtain ⟨t, ht, hs⟩ := exists_next h
  exact ⟨t, ht, by simpa using hs⟩

/-- `STATUS`, `OLEN`, `OBLEN`, `REQ` and `AVAIL` after a command. -/
def State.figures (s : State) : Nat × Nat × Nat × Nat × Nat :=
  (s.status.toNat, s.olen.toNat, s.oblen.toNat, s.req.toNat, s.avail.toNat)

/-- Vector E1: payload 41, 14 RGB pixels 10 11 ... 39. -/
def e1 : State :=
  { State.reset with plen := 1, pin := loaded [0x41], npix := 14, xin := loaded ((List.range 42).map fun i => BitVec.ofNat 8 (16 + i)) }

/-- Vector E3: payload DE AD, 8 pixels of 4 channels, A5 5A C3 (80 + p). -/
def e3 : State :=
  { State.reset with
    plen := 2, pin := loaded [0xDE, 0xAD], npix := 8
    xin := loaded ((List.range 8).flatMap fun p => [0xA5, 0x5A, 0xC3, BitVec.ofNat 8 (128 + p)]) }

/-- The `XOUT` of vector E3, as the spec lists it. -/
def e3out : List Byte :=
  [0xA4, 0x58, 0xC0, 0x80, 0xA4, 0x58, 0xC0, 0x81, 0xA4, 0x58, 0xC0, 0x82, 0xA4, 0x58, 0xC0, 0x83,
   0xA4, 0x59, 0xC0, 0x84, 0xA4, 0x5B, 0xC1, 0x85, 0xA7, 0x5A, 0xC2, 0x86, 0xA6, 0x5B, 0xC1, 0x87]

/-- The `XOUT` of vector E1, as the spec lists it. -/
def e1out : List Byte :=
  [0x10, 0x10, 0x12, 0x12, 0x14, 0x14, 0x16, 0x16, 0x18, 0x18, 0x1A, 0x1A, 0x1C, 0x1C, 0x1E, 0x1E, 0x20, 0x20, 0x22, 0x22, 0x24] ++
  [0x24, 0x26, 0x26, 0x28, 0x28, 0x2A, 0x2A, 0x2D, 0x2C, 0x2E, 0x2E, 0x30, 0x31, 0x32, 0x32, 0x34, 0x34, 0x36, 0x37, 0x38, 0x39]

/-- Vector X1: the output of E1 as the input of `EXTRACT`. -/
def x1 : State := { State.reset with npix := 14, xin := loaded e1out }

/-- `x1` with bits 7 to 1 of every carrier of the frame turned over and the two samples past the frame changed. -/
def x1high : State := { x1 with xin := loaded ((e1out.take 40).map (0xFE#8 ^^^ ·) ++ [0x00, 0x00]) }

/-- Vector X2: the output of E3 as the input of `EXTRACT`. -/
def x2 : State := { State.reset with npix := 8, xin := loaded e3out }

/-- Vectors X4, X5: `n` RGB pixels, every sample `v`. -/
def plain (n : Nat) (v : Byte) : State :=
  { State.reset with npix := BitVec.ofNat 32 n, xin := loaded (List.replicate (3 * n) v) }

/-- Vector X9: L = 4, T = 36. -/
def x9 : State :=
  { State.reset with npix := 12, xin := loaded (List.replicate 29 0x00 ++ [0x01, 0x00, 0x00] ++ List.replicate 4 0x01) }

/-- Vector X10: L = 5, T = 36, too long and unaligned. -/
def x10 : State :=
  { State.reset with npix := 12, xin := loaded (List.replicate 29 0x00 ++ [0x01, 0x00, 0x01] ++ List.replicate 4 0x01) }

/-- Vector V1: payload 01 02. -/
def v1 : State := { State.reset with plen := 2, pin := loaded [0x01, 0x02] }

/-- A bitstream to deserialise. -/
def stream (B : String) : State :=
  { State.reset with blen := BitVec.ofNat 32 (digits B).length, bin := loaded (digits B) }

/-- A platform that implements 16 elements of each byte buffer and 128 of each bit buffer. -/
def small : Config.Platform := { policy := .strict, byteLimit := fun _ => 16, bitLimit := fun _ => 128 }

/-- `n` RGB pixels whose samples are FC: bits 1 and 0 are zero, the others are not. -/
def lowBitsZero (n : Nat) : State := plain n 0xFC

/-! ## Well-formedness: an ill-formed term for each check -/

/-- NCH 0, 1 and 2 are refused for each of the four instructions that have the field (30_encoding.md R41). -/
theorem test_illFormed_nch :
    ∀ nch ∈ [0#3, 1#3, 2#3], (Instr.embedK1 nch).wellFormed = false ∧ (Instr.embedK2 nch).wellFormed = false ∧
      (Instr.extractK1 nch).wellFormed = false ∧ (Instr.extractK2 nch).wellFormed = false := by decide

/-- NCH 3 to 7 are accepted, and the Bit Codec commands always are. -/
theorem test_wellFormed :
    (∀ nch ∈ [3#3, 4#3, 5#3, 6#3, 7#3], (Instr.embedK1 nch).wellFormed = true ∧ (Instr.embedK2 nch).wellFormed = true ∧
      (Instr.extractK1 nch).wellFormed = true ∧ (Instr.extractK2 nch).wellFormed = true) ∧
    Instr.bytesToBits.wellFormed = true ∧ Instr.bitsToBytes.wellFormed = true := by decide

/-! ## Decoding: words written out bit by bit, RSV NCH K OP (30_encoding.md R37; 95_test_vectors.md section 4) -/

theorem test_decode_bytesToBits : decode 0b0_000_00_00#8 = .ok .bytesToBits ∧ decode 0b0_111_11_00#8 = .ok .bytesToBits := by decide
theorem test_decode_bitsToBytes : decode 0b0_000_00_01#8 = .ok .bitsToBytes ∧ decode 0b0_111_11_01#8 = .ok .bitsToBytes := by decide
theorem test_decode_embedK1 : decode 0b0_011_01_10#8 = .ok (.embedK1 3) ∧ decode 0b0_111_01_10#8 = .ok (.embedK1 7) := by decide
theorem test_decode_embedK2 : decode 0b0_011_10_10#8 = .ok (.embedK2 3) ∧ decode 0b0_100_10_10#8 = .ok (.embedK2 4) := by decide
theorem test_decode_extractK1 : decode 0b0_011_01_11#8 = .ok (.extractK1 3) ∧ decode 0b0_111_01_11#8 = .ok (.extractK1 7) := by decide
theorem test_decode_extractK2 : decode 0b0_100_10_11#8 = .ok (.extractK2 4) ∧ decode 0b0_111_10_11#8 = .ok (.extractK2 7) := by decide

/-- The rejected words of the table of section 4. -/
theorem test_decode_rejects :
    (∀ w ∈ [0x80#8, 0xFF#8], decode w = .error .rsvSet) ∧ (∀ w ∈ [0x32#8, 0x3E#8, 0x02#8, 0x03#8], decode w = .error .badK) ∧
    (∀ w ∈ [0x06#8, 0x26#8, 0x27#8], decode w = .error .badNch) := by decide

/-- The words of R46: NCH × 16 + k × 4 + 2 or 3. -/
theorem test_encode :
    encode .bytesToBits = 0x00#8 ∧ encode .bitsToBytes = 0x01#8 ∧ encode (.embedK1 3) = 0x36#8 ∧ encode (.embedK2 4) = 0x4A#8 ∧
    encode (.extractK1 3) = 0x37#8 ∧ encode (.extractK2 7) = 0x7B#8 := by decide

/-- In the table's bit numbering, with a row of 8 bits; and a word no row has. -/
theorem test_decodeTableWord :
    decodeTableWord 8 0x46 = some (.embedK1 4) ∧ decodeTableWord 8 0x01 = some .bitsToBytes ∧ decodeTableWord 8 0x06 = none := by
  decide

/-! ## Primitives -/

/-- B6, B8, B11, B12, B13. -/
theorem test_bitCodec :
    ser8 0xA5#8 = digits "10100101" ∧ ser [0xDE#8, 0xAD#8] = digits "1101111010101101" ∧
    des .strict (digits "1101111010101101") = .ok [0xDE#8, 0xAD#8] ∧ des .strict (digits "100000011") = .error .unaligned ∧
    des .lenient (digits "100000011") = .ok [0x81#8] ∧ des .lenient (digits "1111111") = .ok [] := by decide

/-- H6, H8, H10, H11. -/
theorem test_lengthCodec :
    enc32 0x01020304#32 = digits "00000001000000100000001100000100" ∧ enc32 0xFFFFFFF8#32 = digits "11111111111111111111111111111000" ∧
    dec32 (digits "00000000000110001110100010011101") = 1632413 ∧
    frame [0x41#8] = digits "0000000000000000000000000000100001000001" := by decide

/-- L3, L5, L6, L7, L9. -/
theorem test_distributor :
    group (digits "10") 0 .k2 = 2 ∧ group (digits "01") 0 .k2 = 1 ∧ ungroup 2 .k2 = digits "10" ∧ ins 0x2D#8 0 .k1 = 0x2C#8 ∧
    ins 0xFF#8 2 .k2 = 0xFE#8 ∧ ins 0x5A#8 1 .k2 = 0x59#8 ∧ ins 0xA5#8 3 .k2 = 0xA7#8 ∧ ext 0xFE#8 .k2 = 2 ∧ ext 0xFE#8 .k1 = 0 := by
  decide

/-- M2, M3, M4, M6. -/
theorem test_channelMux :
    (List.range 6).map (carrierAddr 4) = [0, 1, 2, 4, 5, 6] ∧ (List.range 6).map (carrierAddr 7) = [0, 1, 2, 7, 8, 9] ∧
    (carrierPixel (streamCarrier .k1 28), carrierChannel (streamCarrier .k1 28), streamSampleBit .k1 28) = (9, 1, 0) ∧
    (carrierPixel (streamCarrier .k2 32), carrierChannel (streamCarrier .k2 32), streamSampleBit .k2 32) = (5, 1, 1) := by decide

/-! ## Commands -/

/-- V1. -/
theorem test_bytesToBits : nextIs (exec .bytesToBits v1) (fun t =>
    State.figures t = (1, 0, 16, 0, 0) ∧ t.readBits .bout 16 = digits "0000000100000010") = true := by decide +kernel

/-- B17: the word 0x7C. -/
theorem test_bytesToBits_ignores_k_and_nch :
    nextIs (issue 0x7C { State.reset with plen := 1, pin := loaded [0x41] }) (fun t =>
      State.figures t = (1, 0, 8, 0, 0) ∧ t.readBits .bout 8 = digits "01000001" ∧ t.cmd = 0x7C) = true := by decide +kernel

/-- V2. -/
theorem test_bitsToBytes : nextIs (exec .bitsToBytes (stream "0000000100000010")) (fun t =>
    State.figures t = (1, 2, 0, 0, 0) ∧ t.readBytes .pout 2 = [0x01, 0x02]) = true := by decide +kernel

/-- B16, STRICT: `POUT` is untouched, and the status byte is 0x1B. -/
theorem test_bitsToBytes_unaligned :
    nextIs (exec .bitsToBytes { stream "100000011" with pout := loaded [0xEE] }) (fun t =>
      State.figures t = (0x1B, 0, 0, 0, 0) ∧ t.pout = loaded [0xEE]) = true := by decide +kernel

/-- E1. -/
theorem test_embedK1 : nextIs (exec (.embedK1 3) e1) (fun t =>
    State.figures t = (1, 0, 0, 40, 42) ∧ t.xout = loaded e1out) = true := by decide +kernel

/-- E2, with P4's poison: one pixel fewer. -/
theorem test_embedK1_capacity :
    nextIs (exec (.embedK1 3) { e1 with npix := 13, xout := loaded [0xEE, 0xEE, 0xEE] }) (fun t =>
      State.figures t = (2, 0, 0, 40, 39) ∧ t.xout = loaded [0xEE, 0xEE, 0xEE]) = true := by decide +kernel

/-- E3: an exact fit, with an alpha channel. -/
theorem test_embedK2 : nextIs (exec (.embedK2 4) e3) (fun t =>
    State.figures t = (1, 0, 0, 48, 48) ∧ t.xout = loaded e3out) = true := by decide +kernel

/-- E9: 5 pixels hold 30 bits. -/
theorem test_embedK2_capacity : nextIs (exec (.embedK2 3) (plain 5 0xFF)) (fun t =>
    State.figures t = (2, 0, 0, 32, 30) ∧ t.xout = []) = true := by decide +kernel

/-- X1. -/
theorem test_extractK1 : nextIs (exec (.extractK1 3) x1) (fun t =>
    State.figures t = (1, 1, 0, 40, 42) ∧ t.pout = loaded [0x41]) = true := by decide +kernel

/-- X10, STRICT: too long and unaligned is reported as too long. -/
theorem test_extractK1_bodyShort : nextIs (exec (.extractK1 3) x10) (fun t =>
    State.figures t = (0x13, 0, 0, 37, 36) ∧ t.pout = []) = true := by decide +kernel

/-- X2: 32 + L = T is not an error. -/
theorem test_extractK2 : nextIs (exec (.extractK2 4) x2) (fun t =>
    State.figures t = (1, 2, 0, 48, 48) ∧ t.pout = loaded [0xDE, 0xAD]) = true := by decide +kernel

/-- X6: no pixels. -/
theorem test_extractK2_noPixels : nextIs (exec (.extractK2 7) State.reset) (fun t =>
    State.figures t = (0x0B, 0, 0, 32, 0)) = true := by decide +kernel

/-- X8, LENIENT: one byte of the 13 bits left. -/
theorem test_lenient_extract : nextIs (commandOn (Config.platformWith .lenient) (.extractK1 3) (plain 15 0xFF)) (fun t =>
    State.figures t = (1, 1, 0, 4294967327, 45) ∧ t.pout = loaded [0xFF]) = true := by decide +kernel

/-! ## Steps -/

/-- 70_reset_and_hazards.md R114: E3's 32 samples are past 16 elements, so its `CMD` write is refused there; V1's is performed, and a
reserved word still takes ParamError. -/
theorem test_cmdWrite_small_platform :
    hostAct small (.writeReg .cmd 0x4A) e3 = .refused (.byteLimit .xin) ∧
    nextIs (hostAct small (.writeReg .cmd 0x00) v1) (fun t => State.figures t = (1, 0, 16, 0, 0) ∧ t.cmd = 0x00) = true ∧
    nextIs (hostAct small (.writeReg .cmd 0x3F) e3) (fun t => State.figures t = (0x14, 0, 0, 0, 0)) = true :=
  ⟨rfl, by decide +kernel, by decide +kernel⟩

/-- The first step after reset with a word placed runs it: HEADER_SHORT, `OK` and CapacityError of an empty machine. -/
theorem test_step_placed :
    nextIs (step (State.reset.withFetchWord 8 0x37)) (fun t => t.status = 0x0B ∧ t.cmd = 0x37 ∧ t.host = []) = true ∧
    nextIs (step (State.reset.withFetchWord 8 0x00)) (fun t => t.status = 0x01 ∧ t.cmd = 0x00 ∧ t.host = []) = true ∧
    nextIs (step (State.reset.withFetchWord 8 0x3A)) (fun t => t.status = 0x02 ∧ t.cmd = 0x3A ∧ t.host = []) = true := by
  decide +kernel

/-- P5: the word 0x3F gives 0x14 with all figures 0. -/
theorem test_step_badK : nextIs (step { e1 with host := [.writeReg .cmd 0x3F] }) (fun t =>
    State.figures t = (0x14, 0, 0, 0, 0) ∧ t.cmd = 0x3F ∧ t.xin = e1.xin) = true := by decide +kernel

/-- A host write, a copy and a reset (30_encoding.md R46, 70_reset_and_hazards.md R106). -/
theorem test_step_host :
    nextIs (step { State.reset with host := Script.wr .npix 14 }) (fun t => t.npix = 14) = true ∧
    nextIs (step { State.reset with xout := loaded [0x2D], host := Script.cp .xin .xout 1 }) (fun t =>
      t.xin = loaded [0x2D] ∧ t.hostRead = 0x2D) = true ∧
    nextIs (step { e1 with host := [.reset] }) (fun t => t.plen = 0 ∧ t.npix = 0 ∧ t.pin = [] ∧ t.status = 0 ∧ t.epoch = 1) = true := by
  decide +kernel

/-! ## Witnesses: for each statement with hypotheses, a state and operands that meet them, at the values where clauses meet -/

theorem witness_DecodeFollowsOpcodeTable :
    (Instr.embedK1 3).row.holds 0x36#8 = true ∧ (Instr.embedK1 3).nch? = some (cmdNch 0x36#8) ∧ (0x80#8).getLsbD 7 = true ∧
    ((0x02#8).getLsbD 7 = false ∧ (0x02#8).getLsbD 1 = true ∧ (0x02#8).getLsbD 3 = (0x02#8).getLsbD 2) ∧
    ((0x26#8).getLsbD 7 = false ∧ (0x26#8).getLsbD 1 = true ∧ (0x26#8).getLsbD 3 ≠ (0x26#8).getLsbD 2 ∧ (0x26#8).toNat / 16 < 3) := by
  decide

theorem witness_EncodeAndDecodeAgree :
    (Instr.embedK1 3).wellFormed = true ∧ (Instr.extractK2 7).wellFormed = true ∧
    (decode 0x76#8 = .ok (.embedK1 7) ∧ (Instr.embedK1 7).nch? = some 7) ∧
    decode 0x7C#8 = .ok .bytesToBits ∧ Instr.bytesToBits.nch? = none := by decide

theorem witness_ResetValuesOfEveryRegister :
    (∃ t, step { e1 with status := 0x01, host := [.reset] } = .next t ∧ statusCode t.status = 0) ∧
    (∃ t, step State.reset = .next t ∧ statusCode t.status = 0) ∧ ∃ t, issue 0x00 State.reset = .next t :=
  ⟨⟨_, rfl, by decide⟩, ⟨_, rfl, by decide⟩, (exists_ok (by decide +kernel)).imp fun _ h => h.1⟩

theorem witness_SerializePlacesEveryBit : ∃ (D : List Byte) (i j : Nat), i < D.length ∧ j < 8 :=
  ⟨[0x01, 0x02], 1, 7, by decide, by decide⟩

theorem witness_ByteSerializersAreInverse : (digits "00000010").length = 8 ∧ 7 < 8 := by decide

theorem witness_DeserializeUnderBothPolicies :
    ((digits "0000000100000010").length % 8 = 0 ∧ 1 < (digits "0000000100000010").length / 8) ∧
    (digits "100000011").length % 8 ≠ 0 ∧ 0 < (digits "100000011").length / 8 := by decide

theorem witness_BitCodecRoundTrip : (digits "0000000100000010").length % 8 = 0 := by decide

theorem witness_BytesToBitsSerializesPayload :
    (1 < v1.plen.toNat ∧ 7 < 8 ∧ 8 * v1.plen.toNat ≤ 16) ∧ (cmdOp 0x7C#8 = 0b00#2 ∧ cmdRsv 0x7C#8 = 0#1) ∧
    (cmdOp 0x80#8 = 0b00#2 ∧ cmdRsv 0x80#8 = 1#1) := by decide

theorem witness_BitsToBytesDeserializesStream :
    ((stream "0000000100000010").blen.toNat % 8 = 0 ∧ 1 < (stream "0000000100000010").blen.toNat / 8) ∧
    (stream "100000011").blen.toNat % 8 ≠ 0 ∧ (stream "1111111").blen.toNat / 8 = 0 ∧
    (cmdOp 0x7D#8 = 0b01#2 ∧ cmdRsv 0x7D#8 = 0#1) ∧ (cmdOp 0x81#8 = 0b01#2 ∧ cmdRsv 0x81#8 = 1#1) := by decide

theorem witness_BitCodecCommandsCompose :
    ∃ t, commandOn (Config.platformWith .strict) .bytesToBits v1 = .next t ∧
      ∃ u : State, u.blen = t.oblen ∧ ∀ a < t.oblen.toNat, u.readBit .bin a = t.readBit .bout a := by
  obtain ⟨t, ht, h⟩ := exists_such (o := commandOn (Config.platformWith .strict) .bytesToBits v1)
    (P := fun (t : State) => t.oblen = 16 ∧ ∀ a < (16 : Nat), (stream "0000000100000010").readBit .bin a = t.readBit .bout a) (by decide +kernel)
  refine ⟨t, ht, stream "0000000100000010", ?_, ?_⟩
  · rw [h.1]; decide
  · rw [h.1]; exact h.2

theorem witness_HeaderIsBigEndian : 31 < 32 := by decide

theorem witness_HeaderCodersAreInverse : (digits "00000000000110001110100010011101").length = 32 := by decide

theorem witness_FrameLayout :
    ([0xDE, 0xAD] : List Byte).length < 2 ^ 29 ∧ 1 < ([0xDE, 0xAD] : List Byte).length ∧ 7 < 8 := by decide

theorem witness_FrameTakenApart : ([] : List Byte).length < 2 ^ 29 := by decide

theorem witness_GroupAndUngroupAreInverse :
    8 + LsbWidth.k2.bits ≤ (digits "1101111010").length ∧ 3 ≤ (lowmask .k2).toNat ∧ 1 < LsbWidth.k2.bits := by decide

theorem witness_InsertAndExtractLaws :
    (3 ≤ (lowmask .k2).toNat ∧ 0 ≤ (lowmask .k2).toNat) ∧ (∀ i < LsbWidth.k1.bits, (0x5A#8).getLsbD i = (0xA4#8).getLsbD i) ∧
    1 ≤ 1 ∧ 3 ≤ 3 := by decide

theorem witness_CarrierNumbering : 2 < 3 ∧ 3 ≤ 7 ∧ 2 < 3 := by decide

theorem witness_CollectedStreamClosedForm : 41 < 3 * x1.npix.toNat ∧ 47 < x2.npix.toNat * 3 * LsbWidth.k2.bits := by decide

/-- Vector E1 (two carriers copied), vector E3 (an exact fit, alpha samples, the last carrier written), and a sample index at the
end of the written range. -/
theorem witness_EmbedWritesTheFrame :
    (nchLegal 3 = true ∧ 32 + 8 * e1.plen.toNat ≤ e1.npix.toNat * 3 * LsbWidth.k1.bits ∧
      ¬ 3 * 13 + 1 < (32 + 8 * e1.plen.toNat) / LsbWidth.k1.bits ∧ 13 < e1.npix.toNat ∧ 2 < (3 : BitVec 3).toNat) ∧
    (nchLegal 4 = true ∧ 32 + 8 * e3.plen.toNat = e3.npix.toNat * 3 * LsbWidth.k2.bits ∧
      3 * 7 + 2 < (32 + 8 * e3.plen.toNat) / LsbWidth.k2.bits ∧ 3 < (4 : BitVec 3).toNat) ∧
    e3.npix.toNat * (4 : BitVec 3).toNat ≤ 32 := by decide

theorem witness_EmbedCapacityCheck :
    nchLegal 3 = true ∧ 32 + 8 * e1.plen.toNat > { e1 with npix := 13 }.npix.toNat * 3 * LsbWidth.k1.bits ∧
    State.reset.npix = 0 ∧ (plain 11 0xFF).plen = 0 ∧ 11 ≤ (plain 11 0xFF).npix.toNat ∧ ¬ 6 ≤ (plain 5 0xFF).npix.toNat := by decide

theorem witness_EmbedPreservesTheImage :
    (∃ t, exec (.embed .k1 3) e1 = .next t ∧ t.status = Status.ok.word) ∧
    (13 < e1.npix.toNat ∧ 1 < (3 : BitVec 3).toNat ∧ (32 + 8 * e1.plen.toNat) / LsbWidth.k1.bits ≤ 3 * 13 + 1) ∧
    (∃ t, exec (.embed .k2 4) e3 = .next t ∧ t.status = Status.ok.word) ∧ 3 < (4 : BitVec 3).toNat :=
  ⟨exists_ok (by decide +kernel), by decide, exists_ok (by decide +kernel), by decide⟩

theorem witness_EveryFrameBitStandsInItsCarrier :
    (∃ t, exec (.embed .k2 4) e3 = .next t ∧ t.status = Status.ok.word) ∧ 47 < 32 + 8 * e3.plen.toNat :=
  ⟨exists_ok (by decide +kernel), by decide⟩

theorem witness_WalkConsumesTheWholeFrame :
    nchLegal 4 = true ∧ 32 + 8 * e3.plen.toNat ≤ e3.npix.toNat * 3 * LsbWidth.k2.bits := by decide

theorem witness_EmbeddingAgainChangesNothing :
    ∃ t, exec (.embed .k2 4) e3 = .next t ∧ t.status = Status.ok.word ∧
      ∃ u : State, u.plen = e3.plen ∧ u.npix = e3.npix ∧ (∀ a < e3.plen.toNat, u.readByte .pin a = e3.readByte .pin a) ∧
        ∀ a < e3.npix.toNat * (4 : BitVec 3).toNat, u.readByte .xin a = t.readByte .xout a := by
  obtain ⟨t, ht, h⟩ := exists_such (o := exec (.embed .k2 4) e3) (P := fun (t : State) => t.status = Status.ok.word ∧
    ∀ a < (32 : Nat), { e3 with xin := loaded e3out }.readByte .xin a = t.readByte .xout a) (by decide +kernel)
  exact ⟨t, ht, h.1, { e3 with xin := loaded e3out }, rfl, rfl, fun _ _ => rfl, h.2⟩

theorem witness_IllegalChannelCountIsParamError : (2 : BitVec 3).toNat < 3 ∧ (0 : BitVec 3).toNat < 3 := by decide

/-- X2 with 32 + L = T, and X4 with L = 0. -/
theorem witness_ExtractRecoversTheDeclaredPayload :
    (nchLegal 4 = true ∧ 32 ≤ x2.npix.toNat * 3 * LsbWidth.k2.bits ∧
      32 + dec32 (slice (x2.collected .k2 4) 0 32) = x2.npix.toNat * 3 * LsbWidth.k2.bits ∧
      dec32 (slice (x2.collected .k2 4) 0 32) % 8 = 0 ∧ 1 < dec32 (slice (x2.collected .k2 4) 0 32) / 8) ∧
    dec32 (slice ((plain 11 0x00).collected .k1 3) 0 32) = 0 := by decide +kernel

theorem witness_ExtractNeedsAHeader :
    nchLegal 3 = true ∧ (plain 10 0x00).npix.toNat * 3 * LsbWidth.k1.bits < 32 ∧
    (plain 5 0x00).npix.toNat * 3 * LsbWidth.k2.bits < 32 ∧ State.reset.npix = 0 := by decide

/-- X10 (too long), X9 (unaligned, 32 + L = T), X2 (32 + L = T, aligned). -/
theorem witness_ExtractRefusesMalformedStreams :
    (nchLegal 3 = true ∧ 32 ≤ x10.npix.toNat * 3 * LsbWidth.k1.bits ∧
      32 + dec32 (slice (x10.collected .k1 3) 0 32) > x10.npix.toNat * 3 * LsbWidth.k1.bits) ∧
    (32 + dec32 (slice (x9.collected .k1 3) 0 32) ≤ x9.npix.toNat * 3 * LsbWidth.k1.bits ∧
      dec32 (slice (x9.collected .k1 3) 0 32) % 8 ≠ 0) ∧
    32 + dec32 (slice (x2.collected .k2 4) 0 32) = x2.npix.toNat * 3 * LsbWidth.k2.bits ∧
    dec32 (slice (x2.collected .k2 4) 0 32) % 8 = 0 := by decide +kernel

/-- X8: 13 bits are left, so byte 0 exists and byte 1 does not. -/
theorem witness_LenientExtractTruncates :
    nchLegal 3 = true ∧ 32 ≤ (plain 15 0xFF).npix.toNat * 3 * LsbWidth.k1.bits ∧
    (min (32 + dec32 (slice ((plain 15 0xFF).collected .k1 3) 0 32)) ((plain 15 0xFF).npix.toNat * 3 * LsbWidth.k1.bits) - 32) / 8 = 1 := by
  decide +kernel

theorem witness_EmbedThenExtractRecoversThePayload :
    nchLegal 4 = true ∧ 32 + 8 * e3.plen.toNat ≤ e3.npix.toNat * 3 * LsbWidth.k2.bits ∧
    ∃ t, commandOn (Config.platformWith .lenient) (.embed .k2 4) e3 = .next t ∧ t.status = Status.ok.word ∧
      x2.npix = e3.npix ∧ ∀ a < e3.npix.toNat * (4 : BitVec 3).toNat, x2.readByte .xin a = t.readByte .xout a := by
  refine ⟨by decide, by decide, ?_⟩
  obtain ⟨t, ht, h⟩ := exists_such (o := commandOn (Config.platformWith .lenient) (.embed .k2 4) e3) (P := fun (t : State) =>
    t.status = Status.ok.word ∧ x2.npix = e3.npix ∧ ∀ a < (32 : Nat), x2.readByte .xin a = t.readByte .xout a) (by decide +kernel)
  exact ⟨t, ht, h⟩

/-- X1, and the same image with every high bit turned over and the two samples past the frame changed. -/
theorem witness_ExtractDependsOnLowBitsOnly :
    ∃ t, exec (.extract .k1 3) x1 = .next t ∧ t.status = Status.ok.word ∧ x1high.npix = x1.npix ∧ x1high.xin ≠ x1.xin ∧
      ∀ q, q * LsbWidth.k1.bits < t.req.toNat → ∀ i < LsbWidth.k1.bits,
        (x1high.readByte .xin (carrierAddr (3 : BitVec 3).toNat q)).getLsbD i =
          (x1.readByte .xin (carrierAddr (3 : BitVec 3).toNat q)).getLsbD i := by
  obtain ⟨t, ht, h⟩ := exists_such (o := exec (.extract .k1 3) x1)
    (P := fun (t : State) => t.status = Status.ok.word ∧ t.req.toNat = 40) (by decide +kernel)
  have hx : ∀ q < 40, ∀ i < LsbWidth.k1.bits, (x1high.readByte .xin (carrierAddr (3 : BitVec 3).toNat q)).getLsbD i =
      (x1.readByte .xin (carrierAddr (3 : BitVec 3).toNat q)).getLsbD i := by decide +kernel
  exact ⟨t, ht, h.1, rfl, by decide +kernel, fun q hq => hx q (by rw [h.2] at hq; simpa [LsbWidth.bits] using hq)⟩

/-- Not black: only the low bits are zero. -/
theorem witness_AllBlackImageIsAnEmptyPayload :
    nchLegal 3 = true ∧ 32 ≤ (lowBitsZero 6).npix.toNat * 3 * LsbWidth.k2.bits ∧
    (∀ q, q * LsbWidth.k2.bits < 32 → ∀ i < LsbWidth.k2.bits,
      ((lowBitsZero 6).readByte .xin (carrierAddr (3 : BitVec 3).toNat q)).getLsbD i = false) ∧
    (lowBitsZero 6).readByte .xin 0 ≠ 0 := by
  have hx : ∀ q < 16, ∀ i < LsbWidth.k2.bits,
      ((lowBitsZero 6).readByte .xin (carrierAddr (3 : BitVec 3).toNat q)).getLsbD i = false := by decide +kernel
  refine ⟨by decide, by decide, fun q hq => hx q ?_, by decide +kernel⟩
  simp only [LsbWidth.bits] at hq
  omega

theorem witness_ReservedWordsRaiseParamError :
    (0xFF#8).getLsbD 7 = true ∧
    ((0x3E#8).getLsbD 7 = false ∧ (0x3E#8).getLsbD 1 = true ∧ (0x3E#8).getLsbD 3 = (0x3E#8).getLsbD 2) ∧
    ((0x27#8).getLsbD 7 = false ∧ (0x27#8).getLsbD 1 = true ∧ (0x27#8).getLsbD 3 ≠ (0x27#8).getLsbD 2 ∧ (0x27#8).toNat / 16 < 3) := by
  decide

/-- A word and a state in each branch of the table. -/
theorem witness_ExceptionsAreTakenAsTheTableSays :
    (decode 0x36 = .ok (.embed .k1 3) ∧ 32 + 8 * { e1 with npix := 13 }.plen.toNat > { e1 with npix := 13 }.npix.toNat * 3 * 1 ∧
      32 + 8 * e1.plen.toNat ≤ e1.npix.toNat * 3 * 1) ∧
    (decode 0x37 = .ok (.extract .k1 3) ∧ (plain 10 0x00).npix.toNat * 3 * 1 < 32 ∧ 32 ≤ x10.npix.toNat * 3 * 1 ∧
      32 + dec32 (slice (x10.collected .k1 3) 0 32) > x10.npix.toNat * 3 * 1 ∧
      32 + dec32 (slice (x9.collected .k1 3) 0 32) = x9.npix.toNat * 3 * 1 ∧ dec32 (slice (x9.collected .k1 3) 0 32) % 8 ≠ 0 ∧
      32 + dec32 (slice (x1.collected .k1 3) 0 32) ≤ x1.npix.toNat * 3 * 1 ∧ dec32 (slice (x1.collected .k1 3) 0 32) % 8 = 0) ∧
    (decode 0x01 = .ok .bitsToBytes ∧ (stream "100000011").blen.toNat % 8 ≠ 0 ∧ (stream "").blen.toNat % 8 = 0) ∧
    decode 0x00 = .ok .bytesToBits ∧ decode 0x3F = .error .badK := by decide +kernel

theorem witness_InputsAreNeverWritten :
    (∃ t, commandOn Config.platform (.embedK1 3) e1 = .next t ∧ t.status = Status.ok.word) ∧
    ∃ t, issue 0x36 e1 = .next t ∧ t.status = Status.ok.word :=
  ⟨exists_ok (by decide +kernel), exists_ok (by decide +kernel)⟩

/-- The first index past the written range of each output buffer, and a command that raises. -/
theorem witness_OutputsAreWrittenOnlyInRange :
    (∃ t, exec (.embedK1 3) e1 = .next t ∧ t.status = Status.ok.word ∧ byteWriteRange (.embedK1 3) e1 t .xout ≤ 42) ∧
    (∃ t, exec .bytesToBits v1 = .next t ∧ bitWriteRange .bytesToBits v1 .bout ≤ 16) ∧
    ∃ t, exec (.extractK1 3) x9 = .next t ∧ t.status ≠ Status.ok.word := by
  refine ⟨?_, ?_, ?_⟩
  · obtain ⟨t, ht, h⟩ := exists_ok (o := exec (.embedK1 3) e1) (by decide +kernel)
    exact ⟨t, ht, h, (by decide : 14 * 3 ≤ 42)⟩
  · obtain ⟨t, ht, -⟩ := exists_ok (o := exec .bytesToBits v1) (by decide +kernel)
    exact ⟨t, ht, (by decide : 8 * 2 ≤ 16)⟩
  · obtain ⟨t, ht, h⟩ := exists_such (o := exec (.extractK1 3) x9) (P := fun (t : State) => t.status ≠ Status.ok.word) (by decide +kernel)
    exact ⟨t, ht, h⟩

/-- Two states that differ in `STATUS`, an output buffer and an operand register the command ignores; and a reserved word. -/
theorem witness_CommandsDependOnlyOnTheirInputs :
    (readsSame (.embedK1 3) e1 { e1 with status := 0x02, blen := 7, xout := loaded [0xEE] }) ∧
    readsSame (.extractK1 3) x1 { x1 with plen := 9, pout := loaded [0xEE] } ∧
    readsSame .bytesToBits v1 { v1 with blen := 3 } ∧
    readsSame .bitsToBytes (stream "00000010") { stream "00000010" with plen := 3 } ∧ decode 0x3F = .error .badK :=
  ⟨⟨rfl, rfl, fun _ _ => rfl, fun _ _ => rfl⟩, ⟨rfl, fun _ _ _ _ => rfl⟩, ⟨rfl, fun _ _ => rfl⟩, ⟨rfl, fun _ _ => rfl⟩, by decide⟩

theorem witness_RepeatedCommandLeavesTheSameState :
    e1.buffersWf ∧ ∃ t, exec (.embedK1 3) e1 = .next t ∧ t.status = Status.ok.word :=
  ⟨by decide +kernel, exists_ok (by decide +kernel)⟩

theorem witness_ThisHardwareNeverStops :
    (HostOp.writeByte .pin (2 ^ 29 - 2) 0x41).inRange ∧ (HostOp.readBit .bout (2 ^ 32 - 9)).inRange ∧
    (HostOp.copyByte .xin .xout (7 * (2 ^ 32 - 1) - 1)).inRange := by
  simp only [HostOp.inRange, ByteBuf.size, BitBuf.size]; omega

/-- Part of program P5 of spec/95_test_vectors.md. -/
theorem witness_HostInTheRangesStaysInTheRanges :
    ∃ s : State, s.host ≠ [] ∧ ∀ op ∈ s.host, op.inRange :=
  ⟨{ State.reset with host := Script.wr .npix 10 ++ [.copyByte .xin .xout 0, .writeReg .cmd 0x3F] },
    by decide, by simp [Script.wr, HostOp.inRange, ByteBuf.size]⟩

/-- Part of program P5 of spec/95_test_vectors.md. -/
theorem witness_HostInsideTheRangesRunsSafely :
    ∃ s : State, s.host ≠ [] ∧ ∀ op ∈ s.host, op.inRange :=
  ⟨{ State.reset with host := Script.wr .npix 10 ++ Script.ld .xin [0x00, 0x00] ++ [.writeReg .cmd 0x3F] ++ Script.rd .status },
    by decide, by simp [Script.wr, Script.ld, Script.rd, HostOp.inRange, ByteBuf.size, List.range_succ]⟩

/-- V1's command runs on the small platform, E3's does not, and X1's runs on 42 samples. -/
theorem witness_CommandsRunExactlyWithinTheLimits :
    (v1.plen.toNat ≤ small.byteLimit .pin ∧ 8 * v1.plen.toNat ≤ small.bitLimit .bout) ∧
    (nchLegal 4 = true ∧ ¬ e3.npix.toNat * (4 : BitVec 3).toNat ≤ small.byteLimit .xin) ∧
    ∀ p < x1.npix.toNat, ∀ c < 3, p * (3 : BitVec 3).toNat + c < 42 := by decide

/-- A command within its limits, one that reaches past them, an `EXTRACT` that recovers more bytes than a `POUT` of 1 byte has, and a
word that spells none. -/
theorem witness_CmdWriteBeyondTheLimitsIsRefused :
    (decode 0x00 = .ok .bytesToBits ∧ rangesFit small .bytesToBits v1) ∧
    (decode 0x4A = .ok (.embedK2 4) ∧ ¬ rangesFit small (.embedK2 4) e3) ∧
    (decode 0x4B = .ok (.extract .k2 4) ∧
      ∃ t, commandOn (Config.platformWith .strict) (.extract .k2 4) { x2 with cmd := 0x4B } = .next t ∧ 1 < t.olen.toNat) ∧
    decode 0x3F = .error .badK := by
  refine ⟨⟨by decide, by unfold rangesFit; decide⟩, ⟨by decide, by unfold rangesFit; decide⟩, ⟨by decide, ?_⟩, by decide⟩
  exact exists_such (P := fun (t : State) => 1 < t.olen.toNat) (by decide +kernel)

theorem witness_FiguresFitTheirRegisters :
    (∃ t, commandOn (Config.platformWith .strict) .bytesToBits v1 = .next t ∧ t.status = Status.ok.word) ∧
    (∃ t, commandOn (Config.platformWith .lenient) .bitsToBytes (stream "100000011") = .next t ∧ t.status = Status.ok.word) ∧
    nchLegal 4 = true ∧ (∃ t, commandOn (Config.platformWith .strict) (.embed .k2 4) e3 = .next t ∧ t.status = Status.ok.word) ∧
    (∃ t, commandOn (Config.platformWith .lenient) (.extract .k1 3) (plain 15 0xFF) = .next t ∧ t.status = Status.ok.word) ∧
    (plain 10 0x00).npix.toNat * 3 * LsbWidth.k1.bits < 32 :=
  ⟨exists_ok (by decide +kernel), exists_ok (by decide +kernel), by decide, exists_ok (by decide +kernel),
    exists_ok (by decide +kernel), by decide⟩

theorem witness_CmdWriteIssuesTheCommand :
    decode 0x36 = .ok (.embedK1 3) ∧ decode 0x06 = .error .badNch ∧ (∃ t, issue 0x36 e1 = .next t ∧ t.status = Status.ok.word) ∧
    ∃ t, hostAct Config.platform (.readReg .plen) e1 = .next t :=
  ⟨by decide, by decide, exists_ok (by decide +kernel), _, rfl⟩

theorem witness_HostReadsAndReadOnlyWritesChangeNothing :
    Reg.status.number ∈ [1, 5, 6, 7, 8] ∧ Reg.avail.number ∈ [1, 5, 6, 7, 8] ∧ 2 ^ 29 - 2 < ByteBuf.size .pout ∧
    2 ^ 32 - 9 < BitBuf.size .bout := by decide

theorem witness_HostWritesOperandRegisters : Reg.plen ∈ [Reg.plen, .blen, .npix] ∧ Reg.cmd ≠ Reg.plen := by decide

theorem witness_HostWritesOneElement :
    7 * (2 ^ 32 - 1) - 1 < ByteBuf.size .xout ∧ 2 ^ 32 - 2 < BitBuf.size .bin ∧
    (2 ^ 29 - 2 < ByteBuf.size .pin ∧ 2 ^ 29 - 2 < ByteBuf.size .pout) ∧
    (2 ^ 32 - 9 < BitBuf.size .bin ∧ 2 ^ 32 - 9 < BitBuf.size .bout) := by decide

/-- The copies at the first index that the source has and the destination has not. -/
theorem witness_NoElementOutsideTheIndexRange :
    ByteBuf.size .pin ≤ 2 ^ 29 - 1 ∧ BitBuf.size .bout ≤ 2 ^ 32 - 8 ∧
    (2 ^ 29 - 1 < ByteBuf.size .xin ∧ ByteBuf.size .pout ≤ 2 ^ 29 - 1) ∧
    (2 ^ 32 - 8 < BitBuf.size .bin ∧ BitBuf.size .bout ≤ 2 ^ 32 - 8) := by decide

theorem witness_StepRunsTheIssuedCommand :
    decode 0x36 = .ok (.embedK1 3) ∧ { e1 with host := [.writeReg .cmd 0x36] }.host = [.writeReg .cmd 0x36] ∧
    decodeTableWord 8 0x4B = some (.extractK2 4) ∧ { e1 with host := [.reset] }.host = [.reset] := by decide

theorem witness_IdleBlockKeepsItsState : State.reset.host = [] := rfl

theorem witness_BuffersStayCanonical :
    e1.buffersWf ∧ ∃ t, step (e1.issueNext 0x36) = .next t ∧ t.status = Status.ok.word :=
  ⟨by decide +kernel, exists_ok (by decide +kernel)⟩

theorem witness_ResultsStayCoherent :
    e1.resultsCoherent ∧ ∃ t, step (e1.issueNext 0x36) = .next t ∧ t.status = Status.ok.word :=
  ⟨.inl ⟨rfl, rfl, rfl, rfl, rfl, rfl⟩, exists_ok (by decide +kernel)⟩

end Sys2Proof.Tests
end

section
/-! PROOFS of the state family (spec/10_state.md R12, R20, R25): what every command leaves unchanged, what a `CMD` write does, and
that a command's effect is a function of what it reads. -/

namespace Sys2Proof.Machine

/-! ## What an update keeps -/

@[simp] theorem State.hostSideKept_report {s t : State} {st : Status} {olen oblen req avail : Nat} :
    s.hostSideKept (t.report st olen oblen req avail) ↔ s.hostSideKept t := Iff.rfl

@[simp] theorem State.inputsKept_report {s t : State} {st : Status} {olen oblen req avail : Nat} :
    s.inputsKept (t.report st olen oblen req avail) ↔ s.inputsKept t := Iff.rfl

@[simp] theorem State.inputsKept_refl (s : State) : s.inputsKept s := ⟨fun _ => rfl, fun _ => rfl, fun _ => rfl⟩

@[simp] theorem State.hostSideKept_setBytes (s : State) (b : ByteBuf) (m : Memory Byte) : s.hostSideKept (s.setBytes b m) := by
  simp [State.hostSideKept]

@[simp] theorem State.hostSideKept_setBits (s : State) (b : BitBuf) (m : Memory Bit) : s.hostSideKept (s.setBits b m) := by
  simp [State.hostSideKept]

/-- Replacing a byte buffer that is no input keeps the inputs. -/
theorem State.inputsKept_setBytes (s : State) {b : ByteBuf} (m : Memory Byte) (hp : .pin ≠ b) (hx : .xin ≠ b) :
    s.inputsKept (s.setBytes b m) :=
  ⟨fun a => s.readByte_setBytes_other m a hp, fun a => s.readBit_setBytes b .bin m a,
    fun a => s.readByte_setBytes_other m a hx⟩

theorem State.inputsKept_setBout (s : State) (m : Memory Bit) : s.inputsKept (s.setBits .bout m) :=
  ⟨fun a => s.readByte_setBits .bout .pin m a, fun a => s.readBit_setBits_other m a (by decide),
    fun a => s.readByte_setBits .bout .xin m a⟩

/-! ## What every command, every `CMD` write and every other host action keeps -/

/-- Whatever a command writes is an output buffer or an engine-written register (spec/10_state.md R14, R20). -/
theorem commandOn_keeps {pf : Config.Platform} {i : Instr} {s t : State} (h : commandOn pf i s = .next t) :
    s.inputsKept t ∧ s.hostSideKept t := by
  rcases commandOn_next h with ⟨e, req, avail, rfl⟩ | ⟨-, rfl⟩ | ⟨D, req, avail, -, -, -, rfl⟩ | ⟨k, nch, -, -, rfl⟩
  · exact ⟨State.inputsKept_report.2 s.inputsKept_refl, s.report_hostSideKept ..⟩
  · exact ⟨State.inputsKept_report.2 (s.inputsKept_setBout _), State.hostSideKept_report.2 (s.hostSideKept_setBits ..)⟩
  · exact ⟨State.inputsKept_report.2 (s.inputsKept_setBytes _ (by decide) (by decide)),
      State.hostSideKept_report.2 (s.hostSideKept_setBytes ..)⟩
  · exact ⟨State.inputsKept_report.2 (s.inputsKept_setBytes _ (by decide) (by decide)),
      State.hostSideKept_report.2 (s.hostSideKept_setBytes ..)⟩

/-- The same of a `CMD` write, `CMD` itself taking the word (spec/10_state.md R12). -/
theorem issue_keeps {w : Byte} {s t : State} (h : issue w s = .next t) :
    s.inputsKept t ∧ State.hostSideKept { s with cmd := w } t := by
  rcases issue_cases w s with ⟨i, -, hi⟩ | ⟨c, -, hc⟩
  · rw [hi, exec_eq] at h
    exact commandOn_keeps h
  · rw [hc] at h
    cases h
    exact ⟨s.inputsKept_refl, State.hostSideKept_refl _⟩

/-- The host changes `CMD` by writing it or by a reset, and by nothing else (spec/10_state.md R12). -/
theorem hostAct_keeps_cmd {pf : Config.Platform} {op : HostOp} {s t : State} (h : hostAct pf op s = .next t)
    (hw : ∀ w, op ≠ .writeReg .cmd w) (hr : op ≠ .reset) : t.cmd = s.cmd := by
  cases op with
  | writeReg r v =>
    cases r with
    | cmd => exact absurd rfl (hw v)
    | status | plen | blen | npix | olen | oblen | req | avail => cases h; rfl
  | readReg r => cases h; rfl
  | writeByte b i v =>
    obtain ⟨-, h⟩ := accessByte_next h
    cases h; exact s.setBytes_cmd ..
  | writeBit b i v =>
    obtain ⟨-, h⟩ := accessBit_next h
    cases h; exact s.setBits_cmd ..
  | readByte b i =>
    obtain ⟨-, h⟩ := accessByte_next h
    cases h; rfl
  | readBit b i =>
    obtain ⟨-, h⟩ := accessBit_next h
    cases h; rfl
  | copyByte dst src i =>
    obtain ⟨-, h⟩ := accessByte_next h
    obtain ⟨-, h⟩ := accessByte_next h
    cases h; exact State.setBytes_cmd ..
  | copyBit dst src i =>
    obtain ⟨-, h⟩ := accessBit_next h
    obtain ⟨-, h⟩ := accessBit_next h
    cases h; exact State.setBits_cmd ..
  | reset => exact absurd rfl hr

/-! ## What a command reads and where it writes -/

theorem State.payload_congr {s u : State} (hp : u.plen = s.plen)
    (h : ∀ a < s.plen.toNat, u.readByte .pin a = s.readByte .pin a) : u.payload = s.payload := by
  rw [State.payload, hp]
  exact List.map_congr_left fun a ha => h a (List.mem_range.1 ha)

theorem State.bitstream_congr {s u : State} (hb : u.blen = s.blen)
    (h : ∀ a < s.blen.toNat, u.readBit .bin a = s.readBit .bin a) : u.bitstream = s.bitstream := by
  rw [State.bitstream, hb]
  exact List.map_congr_left fun a ha => h a (List.mem_range.1 ha)

theorem State.collected_congr {s u : State} (k : LsbWidth) {nch : Nat} (hn : u.npix = s.npix)
    (h : ∀ p < s.npix.toNat, ∀ c < 3, u.sample nch p c = s.sample nch p c) : u.collected k nch = s.collected k nch := by
  rw [State.collected, hn]
  refine List.flatMap_congr fun p hp => List.flatMap_congr fun c hc => ?_
  rw [h p (List.mem_range.1 hp) c (List.mem_range.1 hc)]

theorem readsSame_embed {k : LsbWidth} {nch : BitVec 3} {s u : State} : readsSame (.embed k nch) s u ↔
    u.plen = s.plen ∧ u.npix = s.npix ∧ (∀ a < s.plen.toNat, u.readByte .pin a = s.readByte .pin a) ∧
      ∀ a < s.npix.toNat * nch.toNat, u.readByte .xin a = s.readByte .xin a := by cases k <;> rfl

theorem readsSame_extract {k : LsbWidth} {nch : BitVec 3} {s u : State} : readsSame (.extract k nch) s u ↔
    u.npix = s.npix ∧ ∀ p < s.npix.toNat, ∀ c < 3, u.sample nch.toNat p c = s.sample nch.toNat p c := by cases k <;> rfl

@[simp] theorem byteWriteRange_bytesToBits (s t : State) (b : ByteBuf) : byteWriteRange .bytesToBits s t b = 0 := rfl

@[simp] theorem byteWriteRange_bitsToBytes (s t : State) (b : ByteBuf) :
    byteWriteRange .bitsToBytes s t b = if b = .pout then t.olen.toNat else 0 := by cases b <;> rfl

@[simp] theorem byteWriteRange_embed (k : LsbWidth) (nch : BitVec 3) (s t : State) (b : ByteBuf) :
    byteWriteRange (.embed k nch) s t b = if b = .xout then s.npix.toNat * nch.toNat else 0 := by cases k <;> cases b <;> rfl

@[simp] theorem byteWriteRange_extract (k : LsbWidth) (nch : BitVec 3) (s t : State) (b : ByteBuf) :
    byteWriteRange (.extract k nch) s t b = if b = .pout then t.olen.toNat else 0 := by cases k <;> cases b <;> rfl

@[simp] theorem bitWriteRange_bytesToBits (s : State) (b : BitBuf) :
    bitWriteRange .bytesToBits s b = if b = .bout then 8 * s.plen.toNat else 0 := by cases b <;> rfl

@[simp] theorem bitWriteRange_bitsToBytes (s : State) (b : BitBuf) : bitWriteRange .bitsToBytes s b = 0 := rfl

@[simp] theorem bitWriteRange_embed (k : LsbWidth) (nch : BitVec 3) (s : State) (b : BitBuf) :
    bitWriteRange (.embed k nch) s b = 0 := by cases k <;> rfl

@[simp] theorem bitWriteRange_extract (k : LsbWidth) (nch : BitVec 3) (s : State) (b : BitBuf) :
    bitWriteRange (.extract k nch) s b = 0 := by cases k <;> rfl

/-! ## A command's effect is a function of what it reads -/

theorem Status.word_raised_ne_ok (e : Exception) : (Status.raised e).word ≠ Status.ok.word := by
  rcases e with _ | c | c
  · decide
  · cases c <;> decide
  · cases c <;> decide

/-- Both outcomes of instruction `i`, the first of them from `s`, are next states with the same results and, after `OK`, with the
same elements wherever `i` writes: the conclusion of spec/10_state.md R25. -/
def sameEffect (i : Instr) (s : State) (o o' : Host.Outcome State Fault Refusal) : Prop :=
  ∃ t v, o = .next t ∧ o' = .next v ∧ t.sameResults v ∧
    (t.status = Status.ok.word →
      (∀ b, ∀ a < byteWriteRange i s t b, v.readByte b a = t.readByte b a) ∧
      (∀ b, ∀ a < bitWriteRange i s b, v.readBit b a = t.readBit b a))

/-- Two states that report the same hold the same results. -/
theorem State.sameResults_report (s u : State) (st : Status) (olen oblen req avail : Nat) :
    (s.report st olen oblen req avail).sameResults (u.report st olen oblen req avail) := ⟨rfl, rfl, rfl, rfl, rfl⟩

/-- The same exception taken from any two states is the same effect: nothing is written. -/
theorem sameEffect_raise (i : Instr) (s u : State) (e : Exception) (req avail : Nat) :
    sameEffect i s (.next (s.raise e req avail)) (.next (u.raise e req avail)) :=
  ⟨_, _, rfl, rfl, s.sameResults_report u .., fun h => absurd h (Status.word_raised_ne_ok e)⟩

/-- The same bytes written to `POUT` and their number reported are the same effect of a command that writes `POUT[0..OLEN)`. -/
theorem sameEffect_writePout {i : Instr} (s u : State) (D : List Byte) (req avail : Nat)
    (hB : ∀ t b, byteWriteRange i s t b = if b = .pout then t.olen.toNat else 0) (hb : ∀ b, bitWriteRange i s b = 0) :
    sameEffect i s (.next ((s.writeBytes .pout D).report .ok D.length 0 req avail))
      (.next ((u.writeBytes .pout D).report .ok D.length 0 req avail)) := by
  refine ⟨_, _, rfl, rfl, State.sameResults_report .., fun _ => ⟨fun b a ha => ?_, fun b a ha => ?_⟩⟩
  · rw [hB] at ha
    split_ifs at ha with hp
    · subst hp
      have hD : a < D.length := lt_of_lt_of_le ha (by simpa using Nat.mod_le ..)
      simp [State.readByte_writeBytes, hD]
    · omega
  · rw [hb] at ha; omega

section
variable {pf : Config.Platform} (hw : wholeBuffers pf) {s u : State}
include hw

/-- `BYTES_TO_BITS` (spec/40_bit_codec.md R52). -/
theorem bytesToBitsOn_sameEffect (h : readsSame .bytesToBits s u) :
    sameEffect .bytesToBits s (bytesToBitsOn pf s) (bytesToBitsOn pf u) := by
  obtain ⟨hp, hD⟩ := h
  rw [bytesToBitsOn_eq hw, bytesToBitsOn_eq hw, State.payload_congr hp hD, hp]
  refine ⟨_, _, rfl, rfl, State.sameResults_report .., fun _ => ⟨fun b a ha => by simp at ha, fun b a ha => ?_⟩⟩
  rw [bitWriteRange_bytesToBits] at ha
  split_ifs at ha with hb
  · subst hb
    simp [State.readBit_writeBits, ha]
  · omega

/-- `BITS_TO_BYTES` (spec/40_bit_codec.md R53). -/
theorem bitsToBytesOn_sameEffect (h : readsSame .bitsToBytes s u) :
    sameEffect .bitsToBytes s (bitsToBytesOn pf s) (bitsToBytesOn pf u) := by
  obtain ⟨hb, hB⟩ := h
  have hl : s.blen.toNat / 8 = (desGroups s.bitstream).length := by simp
  rw [bitsToBytesOn_eq hw, bitsToBytesOn_eq hw, State.bitstream_congr hb hB, hb, hl]
  split_ifs
  · exact sameEffect_raise ..
  · exact sameEffect_writePout s u _ 0 0 (byteWriteRange_bitsToBytes s) (bitWriteRange_bitsToBytes s)

/-- `EMBED` (spec/44_embed.md R75, R78). -/
theorem embedOn_sameEffect {k : LsbWidth} {nch : BitVec 3} (h : readsSame (.embed k nch) s u) :
    sameEffect (.embed k nch) s (embedOn pf k nch s) (embedOn pf k nch u) := by
  by_cases hn : nchLegal nch = true
  · obtain ⟨hp, hx, hD, hX⟩ := readsSame_embed.1 h
    have hr : u.required = s.required := by simp only [State.required, hp]
    have ha : u.available k = s.available k := by simp only [State.available, hx]
    rw [embedOn_eq hw s k hn, embedOn_eq hw u k hn, hr, ha]
    split_ifs
    · exact sameEffect_raise ..
    · refine ⟨_, _, rfl, rfl, State.sameResults_report .., fun _ => ⟨fun b a ha => ?_, fun b a ha => by simp at ha⟩⟩
      rw [byteWriteRange_embed] at ha
      split_ifs at ha with hb
      · subst hb
        have h3 := three_le_of_legal hn
        rw [State.report_readByte, State.report_readByte, readByte_embedded s k h3, readByte_embedded u k h3, hx,
          if_pos ha, if_pos ha, State.payload_congr hp hD, hX a ha]
      · omega
  · rw [embedOn, embedOn, if_neg hn, if_neg hn]
    exact sameEffect_raise ..

/-- What `EXTRACT` does with a collected stream depends on nothing but the stream (spec/45_extract.md R84 to R87). -/
theorem extractFrom_sameEffect (k : LsbWidth) (nch : BitVec 3) (s u : State) (S : Bits) (hS : S.length < 2 ^ 35) :
    sameEffect (.extract k nch) s (extractFrom pf S s) (extractFrom pf S u) := by
  by_cases hl : S.length < 32
  · rw [extractFrom_short s S hl, extractFrom_short u S hl]
    exact sameEffect_raise ..
  · rw [extractFrom_eq hw s S (by omega) hS, extractFrom_eq hw u S (by omega) hS]
    split_ifs
    · exact sameEffect_raise ..
    · exact sameEffect_raise ..
    · have hD : (min (32 + dec32 (slice S 0 32)) S.length - 32) / 8 =
          (desGroups (slice S 32 (min (32 + dec32 (slice S 0 32)) S.length))).length := by simp; omega
      rw [hD]
      exact sameEffect_writePout s u _ _ _ (byteWriteRange_extract k nch s) (bitWriteRange_extract k nch s)

/-- `EXTRACT` (spec/45_extract.md R82). -/
theorem extractOn_sameEffect {k : LsbWidth} {nch : BitVec 3} (h : readsSame (.extract k nch) s u) :
    sameEffect (.extract k nch) s (extractOn pf k nch s) (extractOn pf k nch u) := by
  by_cases hn : nchLegal nch = true
  · obtain ⟨hx, hX⟩ := readsSame_extract.1 h
    rw [extractOn_eq hw s k hn, extractOn_eq hw u k hn, State.collected_congr k hx hX]
    exact extractFrom_sameEffect hw k nch s u _ (by rw [length_collected]; exact available_lt s k)
  · rw [extractOn, extractOn, if_neg hn, if_neg hn]
    exact sameEffect_raise ..

/-- Every command, from two states that agree on what it reads (spec/10_state.md R25). -/
theorem commandOn_sameEffect {i : Instr} (h : readsSame i s u) : sameEffect i s (commandOn pf i s) (commandOn pf i u) := by
  rcases Instr_cases i with rfl | rfl | ⟨k, nch, rfl⟩ | ⟨k, nch, rfl⟩
  · exact bytesToBitsOn_sameEffect hw h
  · exact bitsToBytesOn_sameEffect hw h
  · rw [commandOn_embed, commandOn_embed]
    exact embedOn_sameEffect hw h
  · rw [commandOn_extract, commandOn_extract]
    exact extractOn_sameEffect hw h

end

/-! ## The obligations -/

/-- Settles O39: every command's outcomes, once and for all in `commandOn_next`, write no input buffer, not `CMD` and no operand
register. -/
theorem inputsAreNeverWritten : Obligations.InputsAreNeverWritten :=
  ⟨fun _ _ _ _ => commandOn_keeps, fun _ _ _ => issue_keeps⟩

/-- Settles O48: `CMD` takes the word in the write that issues it, and the command, which keeps it, is all that follows. -/
theorem cmdWriteIssuesTheCommand : Obligations.CmdWriteIssuesTheCommand := by
  refine ⟨fun w s => ⟨?_, fun i hi => issue_of_ok hi s, fun c hc => ?_, fun t ht => ?_⟩,
    fun op s t => hostAct_keeps_cmd, rfl⟩
  · rw [hostAct_writeCmd, issueOn_platform]
  · rw [issue_of_error hc]
    exact takesException_raise _ _ (by norm_num) (by norm_num)
  · obtain ⟨-, hcmd, -⟩ := issue_keeps ht
    exact hcmd

/-- Settles O41: each command's closed form mentions the state it starts from only through what it reads, and a word that spells
no command raises with all figures 0. -/
theorem commandsDependOnlyOnTheirInputs : Obligations.CommandsDependOnlyOnTheirInputs := by
  refine ⟨fun p i s u h => commandOn_sameEffect (wholeBuffers_platformWith p) h, fun w c s u hc => ?_⟩
  exact ⟨_, _, issue_of_error hc s, issue_of_error hc u, State.sameResults_report ..⟩

end Sys2Proof.Machine
end

section
/-! PROOFS of the encoding family (spec/30_encoding.md R37 to R44): the fields of a command word; what the decode procedure says of
the fields, which the decoder is shown to answer; the rows of the opcode table in the same terms; and what follows for the words
that spell no command and for the counts. -/

namespace Sys2Proof

/-! ## The fields of a command word -/

/-- A field of `m` bits from bit `n` up, as a number. -/
theorem toNat_field (w : Byte) (n m : Nat) : (w.extractLsb' n m).toNat = w.toNat / 2 ^ n % 2 ^ m := by
  rw [BitVec.extractLsb'_toNat, Nat.shiftRight_eq_div_pow]

theorem toNat_cmdRsv (w : Byte) : (cmdRsv w).toNat = w.toNat / 128 % 2 := toNat_field w 7 1

theorem toNat_cmdNch (w : Byte) : (cmdNch w).toNat = w.toNat / 16 % 8 := toNat_field w 4 3

theorem toNat_cmdK (w : Byte) : (cmdK w).toNat = w.toNat / 4 % 4 := toNat_field w 2 2

theorem toNat_cmdOp (w : Byte) : (cmdOp w).toNat = w.toNat % 4 := by
  rw [← Nat.div_one w.toNat]
  exact toNat_field w 0 2

section commandWord
variable (rsv : BitVec 1) (nch : BitVec 3) (k op : BitVec 2)

/-- The sum of spec/30_encoding.md R37 fits the word. -/
theorem toNat_commandWord : (commandWord rsv nch k op).toNat = rsv.toNat * 128 + nch.toNat * 16 + k.toNat * 4 + op.toNat :=
  (BitVec.toNat_ofNat ..).trans (Nat.mod_eq_of_lt (by omega))

theorem cmdRsv_commandWord : cmdRsv (commandWord rsv nch k op) = rsv :=
  BitVec.eq_of_toNat_eq (by rw [toNat_cmdRsv, toNat_commandWord]; omega)

theorem cmdNch_commandWord : cmdNch (commandWord rsv nch k op) = nch :=
  BitVec.eq_of_toNat_eq (by rw [toNat_cmdNch, toNat_commandWord]; omega)

theorem cmdK_commandWord : cmdK (commandWord rsv nch k op) = k :=
  BitVec.eq_of_toNat_eq (by rw [toNat_cmdK, toNat_commandWord]; omega)

theorem cmdOp_commandWord : cmdOp (commandWord rsv nch k op) = op :=
  BitVec.eq_of_toNat_eq (by rw [toNat_cmdOp, toNat_commandWord]; omega)

/-- A command word is its four fields side by side. -/
theorem commandWord_eq_append : commandWord rsv nch k op = rsv ++ nch ++ k ++ op := by
  have h {m n : Nat} (x : BitVec m) (y : BitVec n) : (x ++ y).toNat = x.toNat * 2 ^ n + y.toNat := by
    rw [BitVec.toNat_append, ← Nat.shiftLeft_add_eq_or_of_lt y.isLt, Nat.shiftLeft_eq]
  apply BitVec.eq_of_toNat_eq
  simp only [toNat_commandWord, h]
  omega

end commandWord

/-- Every word is put together from its own fields. -/
theorem commandWord_fields (w : Byte) : commandWord (cmdRsv w) (cmdNch w) (cmdK w) (cmdOp w) = w :=
  BitVec.eq_of_toNat_eq (by rw [toNat_commandWord, toNat_cmdRsv, toNat_cmdNch, toNat_cmdK, toNat_cmdOp]; omega)

/-- Two command words are equal exactly when their fields are. -/
theorem commandWord_inj {rsv rsv' : BitVec 1} {nch nch' : BitVec 3} {k k' op op' : BitVec 2} :
    commandWord rsv nch k op = commandWord rsv' nch' k' op' ↔ rsv = rsv' ∧ nch = nch' ∧ k = k' ∧ op = op' := by
  refine ⟨fun h => ⟨?_, ?_, ?_, ?_⟩, by rintro ⟨rfl, rfl, rfl, rfl⟩; rfl⟩
  · simpa only [cmdRsv_commandWord] using congrArg cmdRsv h
  · simpa only [cmdNch_commandWord] using congrArg cmdNch h
  · simpa only [cmdK_commandWord] using congrArg cmdK h
  · simpa only [cmdOp_commandWord] using congrArg cmdOp h

/-- Masking a command word masks each field. -/
theorem commandWord_and (rsv rsv' : BitVec 1) (nch nch' : BitVec 3) (k k' op op' : BitVec 2) :
    commandWord rsv nch k op &&& commandWord rsv' nch' k' op' =
      commandWord (rsv &&& rsv') (nch &&& nch') (k &&& k') (op &&& op') := by
  have h : (rsv ++ nch ++ k ++ op) &&& (rsv' ++ nch' ++ k' ++ op') =
      (rsv &&& rsv') ++ (nch &&& nch') ++ (k &&& k') ++ (op &&& op') := by simp only [BitVec.and_append]
  simpa only [commandWord_eq_append] using h

/-- The mask of the Bit Codec rows keeps `RSV` and `OP`. -/
theorem and_0x83_eq_commandWord (w : Byte) : w &&& 0x83#8 = commandWord (cmdRsv w) 0 0 (cmdOp w) := by
  have hm : 0x83#8 = commandWord (BitVec.allOnes 1) 0#3 0#2 (BitVec.allOnes 2) := rfl
  rw [hm]
  nth_rw 1 [← commandWord_fields w]
  simp only [commandWord_and, BitVec.and_allOnes, BitVec.and_zero]
  rfl

/-- The mask of the `EMBED` and `EXTRACT` rows keeps every field but `NCH`. -/
theorem and_0x8F_eq_commandWord (w : Byte) : w &&& 0x8F#8 = commandWord (cmdRsv w) 0 (cmdK w) (cmdOp w) := by
  have hm : 0x8F#8 = commandWord (BitVec.allOnes 1) 0#3 (BitVec.allOnes 2) (BitVec.allOnes 2) := rfl
  rw [hm]
  nth_rw 1 [← commandWord_fields w]
  simp only [commandWord_and, BitVec.and_allOnes, BitVec.and_zero]
  rfl

/-! ### The fields, seen in the word's bits -/

theorem getLsbD_field (w : Byte) {n m i : Nat} (h : i < m) : (w.extractLsb' n m).getLsbD i = w.getLsbD (n + i) := by
  simp [h]

theorem getLsbD_cmdRsv (w : Byte) : (cmdRsv w).getLsbD 0 = w.getLsbD 7 := getLsbD_field w one_pos

/-- `OP` is that of `EMBED` or `EXTRACT` when bit 1 of the word is 1. -/
theorem getLsbD_cmdOp_one (w : Byte) : (cmdOp w).getLsbD 1 = w.getLsbD 1 := getLsbD_field w one_lt_two

theorem getLsbD_cmdK_one (w : Byte) : (cmdK w).getLsbD 1 = w.getLsbD 3 := getLsbD_field w one_lt_two

theorem getLsbD_cmdK_zero (w : Byte) : (cmdK w).getLsbD 0 = w.getLsbD 2 := getLsbD_field w two_pos

theorem cmdRsv_eq_one_iff (w : Byte) : cmdRsv w = 1#1 ↔ w.getLsbD 7 = true := by
  have hr : ∀ r : BitVec 1, r = 1#1 ↔ r.getLsbD 0 = true := by decide
  rw [hr, getLsbD_cmdRsv]

theorem cmdRsv_eq_zero_iff (w : Byte) : cmdRsv w = 0#1 ↔ w.getLsbD 7 = false := by
  have hr : ∀ r : BitVec 1, r = 0#1 ↔ r.getLsbD 0 = false := by decide
  rw [hr, getLsbD_cmdRsv]

/-- `K` holds k itself (spec/30_encoding.md R39). -/
theorem decodeK_eq_some_iff (f : BitVec 2) (k : LsbWidth) : decodeK f = some k ↔ f = BitVec.ofNat 2 k.bits := by
  cases k <;> (revert f; decide)

/-- `K` is reserved when its two bits, 3 and 2 of the word, are equal (spec/30_encoding.md R40). -/
theorem decodeK_cmdK_eq_none_iff (w : Byte) : decodeK (cmdK w) = none ↔ w.getLsbD 3 = w.getLsbD 2 := by
  have hf : ∀ f : BitVec 2, decodeK f = none ↔ f.getLsbD 1 = f.getLsbD 0 := by decide
  rw [hf, getLsbD_cmdK_one, getLsbD_cmdK_zero]

/-- With `RSV` = 0, `NCH` is all of the word above bit 3. -/
theorem nchLegal_eq_false_iff {w : Byte} (h : cmdRsv w = 0#1) : nchLegal (cmdNch w) = false ↔ w.toNat / 16 < 3 := by
  have hr : w.toNat / 128 % 2 = 0 := by rw [← toNat_cmdRsv, h]; rfl
  have hn : nchLegal (cmdNch w) = false ↔ ¬ 3 ≤ (cmdNch w).toNat := decide_eq_false_iff_not
  rw [hn, toNat_cmdNch]
  omega

/-! ## The decoder (spec/30_encoding.md R44) -/

/-- The fields of an `EMBED` (`op` = 2) or `EXTRACT` (`op` = 3) word of width `k` that passes every check. -/
def SpellsWalk (w : Byte) (op : BitVec 2) (k : LsbWidth) : Prop :=
  cmdRsv w = 0#1 ∧ cmdOp w = op ∧ decodeK (cmdK w) = some k ∧ nchLegal (cmdNch w) = true

/-- What the decode procedure says of the fields of a word that gets the answer `r`. `OP` has its bit 1 set in the words of `EMBED`
and `EXTRACT`. -/
def Decodes (w : Byte) : Except ParamCause Instr → Prop
  | .error .rsvSet => cmdRsv w = 1#1
  | .error .badK => cmdRsv w = 0#1 ∧ (cmdOp w).getLsbD 1 = true ∧ decodeK (cmdK w) = none
  | .error .badNch =>
    cmdRsv w = 0#1 ∧ (cmdOp w).getLsbD 1 = true ∧ decodeK (cmdK w) ≠ none ∧ nchLegal (cmdNch w) = false
  | .ok .bytesToBits => cmdRsv w = 0#1 ∧ cmdOp w = 0b00#2
  | .ok .bitsToBytes => cmdRsv w = 0#1 ∧ cmdOp w = 0b01#2
  | .ok (.embedK1 nch) => SpellsWalk w 0b10#2 .k1 ∧ nch = cmdNch w
  | .ok (.embedK2 nch) => SpellsWalk w 0b10#2 .k2 ∧ nch = cmdNch w
  | .ok (.extractK1 nch) => SpellsWalk w 0b11#2 .k1 ∧ nch = cmdNch w
  | .ok (.extractK2 nch) => SpellsWalk w 0b11#2 .k2 ∧ nch = cmdNch w

section equations
variable {w : Byte} {mk : LsbWidth → BitVec 3 → Instr}

theorem decode_of_rsv (hr : cmdRsv w = 1#1) : decode w = .error .rsvSet := if_pos hr

theorem decode_of_op (hr : cmdRsv w = 0#1) : decode w =
    if cmdOp w = 0b00#2 then .ok .bytesToBits
    else if cmdOp w = 0b01#2 then .ok .bitsToBytes
    else if cmdOp w = 0b10#2 then decodeWalk .embed w
    else decodeWalk .extract w := if_neg (by rw [hr]; decide)

/-- A word whose `OP` has its bit 1 set is an `EMBED` or an `EXTRACT`. -/
theorem decode_of_walk (hr : cmdRsv w = 0#1) (ho : (cmdOp w).getLsbD 1 = true) :
    decode w = if cmdOp w = 0b10#2 then decodeWalk .embed w else decodeWalk .extract w := by
  have hop : ∀ o : BitVec 2, o.getLsbD 1 = true → o ≠ 0b00#2 ∧ o ≠ 0b01#2 := by decide
  obtain ⟨h0, h1⟩ := hop _ ho
  rw [decode_of_op hr, if_neg h0, if_neg h1]

theorem decodeWalk_of_none (hk : decodeK (cmdK w) = none) : decodeWalk mk w = .error .badK := by
  rw [decodeWalk, hk]

theorem decodeWalk_of_some {k : LsbWidth} (hk : decodeK (cmdK w) = some k) :
    decodeWalk mk w = if nchLegal (cmdNch w) = true then .ok (mk k (cmdNch w)) else .error .badNch := by
  rw [decodeWalk, hk]

theorem SpellsWalk.decode_embed {k : LsbWidth} (h : SpellsWalk w 0b10#2 k) : decode w = .ok (.embed k (cmdNch w)) := by
  obtain ⟨hr, ho, hk, hn⟩ := h
  rw [decode_of_walk hr (by rw [ho]; rfl), if_pos ho, decodeWalk_of_some hk, if_pos hn]

theorem SpellsWalk.decode_extract {k : LsbWidth} (h : SpellsWalk w 0b11#2 k) : decode w = .ok (.extract k (cmdNch w)) := by
  obtain ⟨hr, ho, hk, hn⟩ := h
  rw [decode_of_walk hr (by rw [ho]; rfl), if_neg (by rw [ho]; decide), decodeWalk_of_some hk, if_pos hn]

end equations

/-- An `EMBED` or `EXTRACT` word gets the answer its fields have. -/
theorem decodes_decodeWalk {w : Byte} {mk : LsbWidth → BitVec 3 → Instr} (hr : cmdRsv w = 0#1)
    (ho : (cmdOp w).getLsbD 1 = true)
    (hmk : ∀ k, decodeK (cmdK w) = some k → nchLegal (cmdNch w) = true → Decodes w (.ok (mk k (cmdNch w)))) :
    Decodes w (decodeWalk mk w) := by
  cases hk : decodeK (cmdK w) with
  | none =>
    rw [decodeWalk_of_none hk]
    exact ⟨hr, ho, hk⟩
  | some k =>
    rw [decodeWalk_of_some hk]
    split_ifs with hn
    · exact hmk k hk hn
    · exact ⟨hr, ho, by rw [hk]; exact Option.some_ne_none k, Bool.eq_false_iff.2 hn⟩

/-- Every word gets the answer its fields have. -/
theorem decodes_decode (w : Byte) : Decodes w (decode w) := by
  have hrsv : ∀ r : BitVec 1, r = 1#1 ∨ r = 0#1 := by decide
  have hop : ∀ o : BitVec 2, o ≠ 0b00#2 → o ≠ 0b01#2 → o ≠ 0b10#2 → o = 0b11#2 := by decide
  rcases hrsv (cmdRsv w) with hr | hr
  · rw [decode_of_rsv hr]
    exact hr
  · rw [decode_of_op hr]
    split_ifs with h0 h1 h2
    · exact ⟨hr, h0⟩
    · exact ⟨hr, h1⟩
    · exact decodes_decodeWalk hr (by rw [h2]; rfl) fun
        | .k1, hk, hn => ⟨⟨hr, h2, hk, hn⟩, rfl⟩
        | .k2, hk, hn => ⟨⟨hr, h2, hk, hn⟩, rfl⟩
    · have h3 := hop _ h0 h1 h2
      exact decodes_decodeWalk hr (by rw [h3]; rfl) fun
        | .k1, hk, hn => ⟨⟨hr, h3, hk, hn⟩, rfl⟩
        | .k2, hk, hn => ⟨⟨hr, h3, hk, hn⟩, rfl⟩

/-- A word whose fields have an answer gets it. -/
theorem Decodes.decode_eq {w : Byte} : ∀ {r : Except ParamCause Instr}, Decodes w r → decode w = r
  | .error .rsvSet, hr => decode_of_rsv hr
  | .error .badK, ⟨hr, ho, hk⟩ => by
    rw [decode_of_walk hr ho, decodeWalk_of_none hk, decodeWalk_of_none hk, ite_self]
  | .error .badNch, ⟨hr, ho, hk, hn⟩ => by
    obtain ⟨k, hk⟩ := Option.ne_none_iff_exists'.1 hk
    have hn : ¬ nchLegal (cmdNch w) = true := Bool.eq_false_iff.1 hn
    rw [decode_of_walk hr ho, decodeWalk_of_some hk, decodeWalk_of_some hk, if_neg hn, if_neg hn, ite_self]
  | .ok .bytesToBits, ⟨hr, ho⟩ => (decode_of_op hr).trans (if_pos ho)
  | .ok .bitsToBytes, ⟨hr, ho⟩ => by rw [decode_of_op hr, if_neg (by rw [ho]; decide), if_pos ho]
  | .ok (.embedK1 _), ⟨h, hn⟩ => hn ▸ h.decode_embed
  | .ok (.embedK2 _), ⟨h, hn⟩ => hn ▸ h.decode_embed
  | .ok (.extractK1 _), ⟨h, hn⟩ => hn ▸ h.decode_extract
  | .ok (.extractK2 _), ⟨h, hn⟩ => hn ▸ h.decode_extract

/-- The decoder's answer, by the fields of the word. -/
theorem decode_eq_iff {w : Byte} {r : Except ParamCause Instr} : decode w = r ↔ Decodes w r :=
  ⟨fun h => h ▸ decodes_decode w, Decodes.decode_eq⟩

/-! ## The rows of the opcode table -/

/-- Membership in a row: the match under the mask, and the constraint where there is one. -/
theorem OpcodeRow.holds_iff (mask bits : Byte) (needsNch : Bool) (w : Byte) :
    OpcodeRow.holds ⟨mask, bits, needsNch⟩ w = true ↔
      w &&& mask = bits ∧ (needsNch = false ∨ nchLegal (cmdNch w) = true) := by
  simp only [OpcodeRow.holds, Bool.and_eq_true, beq_iff_eq, Bool.or_eq_true, Bool.not_eq_true']

theorem holds_bitCodecRow_iff (w : Byte) (op : BitVec 2) :
    OpcodeRow.holds ⟨0x83#8, commandWord 0 0 0 op, false⟩ w = true ↔ cmdRsv w = 0#1 ∧ cmdOp w = op := by
  rw [OpcodeRow.holds_iff, and_0x83_eq_commandWord, commandWord_inj]
  exact ⟨fun ⟨⟨hr, _, _, ho⟩, _⟩ => ⟨hr, ho⟩, fun ⟨hr, ho⟩ => ⟨⟨hr, rfl, rfl, ho⟩, .inl rfl⟩⟩

theorem holds_walkRow_iff (w : Byte) (op : BitVec 2) (k : LsbWidth) :
    OpcodeRow.holds ⟨0x8F#8, commandWord 0 0 (BitVec.ofNat 2 k.bits) op, true⟩ w = true ↔ SpellsWalk w op k := by
  rw [OpcodeRow.holds_iff, and_0x8F_eq_commandWord, commandWord_inj, ← decodeK_eq_some_iff]
  exact ⟨fun ⟨⟨hr, _, hk, ho⟩, hn⟩ => ⟨hr, ho, hk, hn.resolve_left nofun⟩,
    fun ⟨hr, ho, hk, hn⟩ => ⟨⟨hr, rfl, hk, ho⟩, .inr hn⟩⟩

/-- A word decodes to an instruction when it belongs to the instruction's row and the operand is the word's. -/
theorem decode_eq_ok_iff_row (w : Byte) (i : Instr) :
    decode w = .ok i ↔ i.row.holds w = true ∧ ∀ n, i.nch? = some n → n = cmdNch w := by
  rw [decode_eq_iff]
  have hsome : ∀ nch : BitVec 3, (∀ n, some nch = some n → n = cmdNch w) ↔ nch = cmdNch w := fun nch =>
    ⟨fun h => h nch rfl, fun h n hn => Option.some.inj hn ▸ h⟩
  cases i with
  | bytesToBits => exact (holds_bitCodecRow_iff w 0b00).symm.trans (and_iff_left nofun).symm
  | bitsToBytes => exact (holds_bitCodecRow_iff w 0b01).symm.trans (and_iff_left nofun).symm
  | embedK1 nch => exact and_congr (holds_walkRow_iff w 0b10 .k1).symm (hsome nch).symm
  | embedK2 nch => exact and_congr (holds_walkRow_iff w 0b10 .k2).symm (hsome nch).symm
  | extractK1 nch => exact and_congr (holds_walkRow_iff w 0b11 .k1).symm (hsome nch).symm
  | extractK2 nch => exact and_congr (holds_walkRow_iff w 0b11 .k2).symm (hsome nch).symm

/-! ## The rejected words by their bits (spec/30_encoding.md R40 to R42) -/

theorem decode_eq_rsvSet_iff (w : Byte) : decode w = .error .rsvSet ↔ w.getLsbD 7 = true :=
  decode_eq_iff.trans (cmdRsv_eq_one_iff w)

theorem decode_eq_badK_iff (w : Byte) : decode w = .error .badK ↔
    w.getLsbD 7 = false ∧ w.getLsbD 1 = true ∧ w.getLsbD 3 = w.getLsbD 2 := by
  rw [decode_eq_iff, ← cmdRsv_eq_zero_iff, ← getLsbD_cmdOp_one, ← decodeK_cmdK_eq_none_iff]
  rfl

theorem decode_eq_badNch_iff (w : Byte) : decode w = .error .badNch ↔
    w.getLsbD 7 = false ∧ w.getLsbD 1 = true ∧ w.getLsbD 3 ≠ w.getLsbD 2 ∧ w.toNat / 16 < 3 := by
  rw [decode_eq_iff, ← cmdRsv_eq_zero_iff, ← getLsbD_cmdOp_one, ne_eq, ← decodeK_cmdK_eq_none_iff]
  exact and_congr_right fun hr => by rw [nchLegal_eq_false_iff hr]

/-! ## The counts -/

/-- Counting among the numbers below `a * b` by quotient and remainder. -/
theorem countP_range_mul (p : Nat → Bool) (a b : Nat) :
    (List.range (a * b)).countP p = ((List.range a).map fun h => (List.range b).countP fun l => p (b * h + l)).sum := by
  induction a with
  | zero => simp
  | succ a ih =>
    rw [Nat.succ_mul, List.range_add, List.countP_append, ih, List.range_succ, List.map_append, List.sum_append, List.countP_map,
      Nat.mul_comm a b]
    simp [Function.comp_def]

/-- The 256 command words by their upper half, `RSV` and `NCH`, and their lower half, `K` and `OP`. -/
theorem countP_words (p : Nat → Bool) :
    (List.range 256).countP p = ((List.range 16).map fun h => (List.range 16).countP fun l => p (16 * h + l)).sum :=
  countP_range_mul p 16 16

/-- How many words each cause of ParamError rejects (spec/30_encoding.md R44). -/
theorem countP_decode_error : ∀ p ∈ [(ParamCause.rsvSet, 128), (.badK, 32), (.badNch, 12)],
    (List.range 256).countP (fun w => decode (BitVec.ofNat 8 w) = .error p.1) = p.2 := by
  simp only [countP_words]
  decide

/-- How many words belong to each row with the constraint. -/
theorem countP_walkRow : ∀ i ∈ [Instr.embedK1 3, .embedK2 3, .extractK1 3, .extractK2 3],
    (List.range 256).countP (fun w => i.row.holds (BitVec.ofNat 8 w)) = 5 := by
  simp only [countP_words]
  decide

end Sys2Proof

namespace Sys2Proof.Machine

/-! ## The obligations -/

/-- Settles O1: the decoder and the table's rows, each read in terms of the word's fields, agree; the rejected words by their
bits; and the counts, half a word at a time. -/
theorem decodeFollowsOpcodeTable : Obligations.DecodeFollowsOpcodeTable :=
  ⟨fun i w => decode_eq_ok_iff_row i w, decode_eq_rsvSet_iff, decode_eq_badK_iff, decode_eq_badNch_iff,
    fun _ _ h => countP_decode_error _ h, (countP_words _).trans (by decide), (countP_words _).trans (by decide), countP_walkRow⟩

/-- A word the decoder rejects takes ParamError, with the word in `CMD` and both figures 0 (spec/60_exceptions.md R93). -/
theorem takesException_of_decode_error {w : Byte} {c : ParamCause} (h : decode w = .error c) (s : State) :
    takesException { s with cmd := w } (issue w s) (.param c) 0 0 := by
  rw [issue_of_error h]
  exact takesException_raise _ _ (by norm_num) (by norm_num)

/-- Settles O37: the bits of each clause are those the decoder rejects by that clause's cause, whatever the state. -/
theorem reservedWordsRaiseParamError : Obligations.ReservedWordsRaiseParamError := fun w s =>
  ⟨fun h => takesException_of_decode_error ((decode_eq_rsvSet_iff w).2 h) s,
    fun h7 h1 hk => takesException_of_decode_error ((decode_eq_badK_iff w).2 ⟨h7, h1, hk⟩) s,
    fun h7 h1 hk hn => takesException_of_decode_error ((decode_eq_badNch_iff w).2 ⟨h7, h1, hk, hn⟩) s⟩

/-- Settles O4: whether a word decodes to a Bit Codec command depends on `RSV` and `OP` only. -/
theorem bitCodecIgnoresKAndNch : Obligations.BitCodecIgnoresKAndNch := fun nch k s => by
  have h0 : decode (commandWord 0 nch k 0b00) = .ok .bytesToBits :=
    decode_eq_iff.2 ⟨cmdRsv_commandWord .., cmdOp_commandWord ..⟩
  have h1 : decode (commandWord 0 nch k 0b01) = .ok .bitsToBytes :=
    decode_eq_iff.2 ⟨cmdRsv_commandWord .., cmdOp_commandWord ..⟩
  exact ⟨h0, h1, issue_of_ok h0 s, issue_of_ok h1 s⟩

end Sys2Proof.Machine
end

section
/-! PROOFS of the Bit Codec family (spec/40_bit_codec.md R47 to R53): every bit of SER8, DES8, SER and DES, and what the two Bit
Codec commands leave in their output buffer. -/

namespace Sys2Proof.Machine

/-! ## Every bit of a coded byte, and of a coded sequence -/

@[simp] theorem getElem_ser8 (b : Byte) (j : Nat) (h : j < (ser8 b).length) : (ser8 b)[j] = b.getLsbD (7 - j) := by
  simp [ser8]

/-- Bit `7 - j` of a deserialised byte is bit `j` of its group (R49). -/
theorem getLsbD_des8 (G : Bits) (h : G.length = 8) (j : Nat) (hj : j < G.length) : (des8 G).getLsbD (7 - j) = G[j] := by
  rw [← getElem_ser8 (des8 G) j (by simpa [h] using hj)]
  simp only [ser8_des8 G h]

/-- A bitstream as a number is the sum of its bits' weights, the first bit's the greatest (R28, R29, R30). -/
theorem msbNumber_eq_sum (B : Bits) :
    msbNumber B = ∑ j ∈ Finset.range B.length, (B.getD j false).toNat * 2 ^ (B.length - 1 - j) := by
  induction B using List.reverseRecOn with
  | nil => rfl
  | append_singleton B b ih =>
    have shift : ∀ j ∈ Finset.range B.length, ((B ++ [b]).getD j false).toNat * 2 ^ (B.length - j) =
        2 * ((B.getD j false).toNat * 2 ^ (B.length - 1 - j)) := by
      intro j hj
      have hj := Finset.mem_range.1 hj
      rw [List.getD_append _ _ _ _ hj, show B.length - j = B.length - 1 - j + 1 by omega]
      ring
    rw [msbNumber_snoc, ih, Finset.mul_sum, List.length_append, List.length_singleton, Finset.sum_range_succ,
      Nat.add_sub_cancel, Finset.sum_congr rfl shift]
    simp

theorem toNat_des8 (G : Bits) (h : G.length = 8) : (des8 G).toNat = msbNumber G := by
  have hl := msbNumber_lt G
  rw [h] at hl
  rw [des8, BitVec.toNat_ofNat, Nat.mod_eq_of_lt hl]

/-- Bit `7 - j` of byte `i` of a deserialised bitstream is its bit `8 i + j` (R50). -/
theorem getLsbD_desGroups (B : Bits) (i j : Nat) (hi : i < (desGroups B).length) (hj : j < 8) :
    (desGroups B)[i].getLsbD (7 - j) = B[8 * i + j]'(by simp at hi; omega) := by
  have hG : (slice B (8 * i) (8 * i + 8)).length = 8 := by simp at hi ⊢; omega
  rw [getElem_desGroups, getLsbD_des8 _ hG j (by omega), getElem_slice]

/-- An aligned length, or `LENIENT`, is answered with the whole groups (R50). -/
theorem des_eq_ok {p : FormatPolicy} {B : Bits} (h : B.length % 8 = 0 ∨ p = .lenient) : des p B = .ok (desGroups B) := by
  rcases des_cases p B with ⟨hd, -⟩ | ⟨-, hr, rfl⟩
  · exact hd
  · exact absurd h (by simp [hr])

/-- An unaligned length raises FormatError(UNALIGNED) under `STRICT` (R50). -/
theorem des_strict_eq_error {B : Bits} (h : B.length % 8 ≠ 0) : des .strict B = .error .unaligned :=
  if_pos ⟨h, rfl⟩

/-! ## Reading the state after a sequence was written -/

@[simp] theorem State.readByte_writeBits (s : State) (b : BitBuf) (c : ByteBuf) (vs : Bits) (a : Nat) :
    (s.writeBits b vs).readByte c a = s.readByte c a := s.readByte_setBits ..

@[simp] theorem State.readBit_writeBytes (s : State) (b : ByteBuf) (c : BitBuf) (vs : List Byte) (a : Nat) :
    (s.writeBytes b vs).readBit c a = s.readBit c a := s.readBit_setBytes ..

@[simp] theorem State.readByte_writeBytes_other (s : State) {b c : ByteBuf} (vs : List Byte) (a : Nat) (h : c ≠ b) :
    (s.writeBytes b vs).readByte c a = s.readByte c a := s.readByte_setBytes_other _ a h

/-! ## The two commands -/

theorem decode_eq_bytesToBits {w : Byte} (hr : cmdRsv w = 0#1) (ho : cmdOp w = 0b00#2) : decode w = .ok .bytesToBits :=
  Decodes.decode_eq (r := .ok .bytesToBits) ⟨hr, ho⟩

theorem decode_eq_bitsToBytes {w : Byte} (hr : cmdRsv w = 0#1) (ho : cmdOp w = 0b01#2) : decode w = .ok .bitsToBytes :=
  Decodes.decode_eq (r := .ok .bitsToBytes) ⟨hr, ho⟩

section
variable {pf : Config.Platform} (hw : wholeBuffers pf) (s : State)
include hw

/-- `BITS_TO_BYTES` with an aligned length, or under `LENIENT` (R53). -/
theorem bitsToBytesOn_eq_ok (h : s.blen.toNat % 8 = 0 ∨ pf.policy = .lenient) : bitsToBytesOn pf s =
    .next ((s.writeBytes .pout (desGroups s.bitstream)).report .ok (s.blen.toNat / 8) 0 0 0) := by
  rw [bitsToBytesOn_eq hw, if_neg]
  rintro ⟨hr, hp⟩
  exact absurd h (by simp [hr, hp])

/-- `BITS_TO_BYTES` with an unaligned length under `STRICT` (R53). -/
theorem bitsToBytesOn_eq_raise (h : s.blen.toNat % 8 ≠ 0) (hp : pf.policy = .strict) :
    bitsToBytesOn pf s = .next (s.raise (.format .unaligned) 0 0) := by
  rw [bitsToBytesOn_eq hw, if_pos ⟨h, hp⟩]

end

/-- `BOUT` after the payload was serialised into it (R52). -/
theorem readBit_writeBits_ser_payload (s : State) (i j : Nat) (hi : i < s.plen.toNat) (hj : j < 8) :
    (s.writeBits .bout (ser s.payload)).readBit .bout (8 * i + j) = (s.readByte .pin i).getLsbD (7 - j) := by
  have hi' : i < s.payload.length := by simpa using hi
  rw [State.readBit_writeBits, dif_pos (by simp; omega), getElem_ser _ _ _ hi' hj]
  simp [State.payload]

/-- `POUT` after the bitstream was deserialised into it (R53). -/
theorem readByte_writeBytes_desGroups_bitstream (s : State) (i j : Nat) (hi : i < s.blen.toNat / 8) (hj : j < 8) :
    ((s.writeBytes .pout (desGroups s.bitstream)).readByte .pout i).getLsbD (7 - j) = s.readBit .bin (8 * i + j) := by
  have hi' : i < (desGroups s.bitstream).length := by simpa using hi
  rw [State.readByte_writeBytes, dif_pos hi', getLsbD_desGroups _ _ _ hi' hj]
  simp [State.bitstream]

/-! ## The obligations -/

/-- Settles O7: `getElem_ser` places every bit; the rest is the recursion of SER. -/
theorem serializePlacesEveryBit : Obligations.SerializePlacesEveryBit := by
  refine ⟨fun D => ⟨length_ser D, fun i j hi hj => ?_⟩, ser_cons, ser_nil, by decide⟩
  rw [← getElem_ser D i j hi hj]
  exact List.getElem?_eq_getElem _

/-- Settles O8: SER8 and DES8 are the two readings of a number by its binary digits, so they are inverse, bit by bit. -/
theorem byteSerializersAreInverse : Obligations.ByteSerializersAreInverse := by
  refine ⟨fun b => ⟨length_ser8 b, fun j hj => ?_, des8_ser8 b⟩, fun G h => ⟨ser8_des8 G h, fun j hj => ?_, ?_⟩, by decide⟩
  · rw [List.getElem?_eq_getElem (by simpa using hj), getElem_ser8]
  · rw [getLsbD_des8 G h j (by omega), List.getElem?_eq_getElem]
  · rw [toNat_des8 G h, msbNumber_eq_sum, h]

/-- Settles O9: what `des` answers is the whole groups, which serialise back to as much of the bitstream as they cover. -/
theorem deserializeUnderBothPolicies : Obligations.DeserializeUnderBothPolicies := by
  refine fun B => ⟨fun p h => ⟨desGroups B, des_eq_ok h, length_desGroups B, fun i hi => ?_, fun hr => ⟨?_, ?_⟩⟩,
    des_strict_eq_error⟩
  · rw [List.getElem?_eq_getElem (by simpa using hi), getElem_desGroups]
  · rw [ser_desGroups, slice_to_end B _ (by omega)]
  · rw [des_eq_ok (.inl hr), des_eq_ok (.inl hr)]

/-- Settles O11: the command is one write to `BOUT` and a report; the frame is that of the write, and the word decodes by `RSV` and
`OP` alone. -/
theorem bytesToBitsSerializesPayload : Obligations.BytesToBitsSerializesPayload := by
  refine ⟨fun s => ?_, fun w s ho => ⟨fun hr => issue_of_ok (decode_eq_bytesToBits hr ho) s,
    fun hr => takesException_of_decode_error (decode_of_rsv hr) s⟩⟩
  have h := bytesToBitsOn_eq wholeBuffers_platform s
  obtain ⟨hin, hside⟩ := commandOn_keeps (i := .bytesToBits) h
  have hp := s.plen.isLt
  refine ⟨_, h, State.report_reports _ _ _ _ _ _ (by norm_num) (by omega) (by norm_num) (by norm_num),
    fun i hi j hj => ?_, fun a ha => ?_, hside, hin, fun a => by simp, fun a => by simp⟩
  · rw [State.report_readBit, readBit_writeBits_ser_payload s i j hi hj]
  · rw [State.report_readBit, State.readBit_writeBits, dif_neg (by simpa using ha)]

/-- Settles O12: where the length is aligned, or under `LENIENT`, the command is one write to `POUT` and a report, the same report
under both policies; otherwise it raises; and the word decodes by `RSV` and `OP` alone. -/
theorem bitsToBytesDeserializesStream : Obligations.BitsToBytesDeserializesStream := by
  refine ⟨fun p s hok => ?_, fun s hr => ?_, fun w s ho => ⟨fun hr => issue_of_ok (decode_eq_bitsToBytes hr ho) s,
    fun hr => takesException_of_decode_error (decode_of_rsv hr) s⟩⟩
  · have h := bitsToBytesOn_eq_ok (wholeBuffers_platformWith p) s hok
    obtain ⟨hin, hside⟩ := commandOn_keeps (i := .bitsToBytes) h
    have hb := s.blen.isLt
    refine ⟨_, h, fun hr => bitsToBytesOn_eq_ok wholeBuffers_platform s (.inl hr),
      State.report_reports _ _ _ _ _ _ (by omega) (by norm_num) (by norm_num) (by norm_num),
      fun i hi j hj => ?_, fun a ha => ?_, hside, hin, fun a => by simp, fun a => by simp⟩
    · rw [State.report_readByte, readByte_writeBytes_desGroups_bitstream s i j hi hj]
    · rw [State.report_readByte, State.readByte_writeBytes, dif_neg (by simpa using ha)]
  · rw [show exec .bitsToBytes s = _ from bitsToBytesOn_eq_raise wholeBuffers_platform s hr rfl]
    exact takesException_raise _ _ (by norm_num) (by norm_num)

end Sys2Proof.Machine
end

section
/-! PROOFS of the length codec family (spec/41_length_codec.md R55, R57): every bit of the header and of the frame, and the header
as the serialised bytes of a big-endian number. -/

namespace Sys2Proof.Machine

/-! ## The header -/

@[simp] theorem length_bigEndianU32 (L : BitVec 32) : (bigEndianU32 L).length = 4 := rfl

/-- Byte `i` of a number, most significant first, holds its bits from `24 - 8 i` on (R55). -/
theorem getElem_bigEndianU32 (L : BitVec 32) (i : Nat) (h : i < (bigEndianU32 L).length) :
    (bigEndianU32 L)[i] = L.extractLsb' (24 - 8 * i) 8 := by
  rw [length_bigEndianU32] at h
  interval_cases i <;> rfl

@[simp] theorem getElem_enc32 (L : BitVec 32) (j : Nat) (h : j < (enc32 L).length) :
    (enc32 L)[j] = L.getLsbD (31 - j) := by
  simp [enc32]

/-- The two forms of the header agree: byte `i` of the four covers the indices `8 i` to `8 i + 7` (R55). -/
theorem enc32_eq_ser_bigEndianU32 (L : BitVec 32) : enc32 L = ser (bigEndianU32 L) := by
  apply List.ext_getElem (by simp)
  intro n h1 h2
  rw [length_enc32] at h1
  obtain ⟨i, j, hi, hj, rfl⟩ : ∃ i j, i < (bigEndianU32 L).length ∧ j < 8 ∧ n = 8 * i + j :=
    ⟨n / 8, n % 8, by simp; omega, by omega, by omega⟩
  have place : 24 - 8 * i + (7 - j) = 31 - (8 * i + j) := by omega
  rw [getElem_enc32, getElem_ser (bigEndianU32 L) i j hi hj, getElem_bigEndianU32,
    BitVec.getLsbD_extractLsb', place]
  simp [show 7 - j < 8 by omega]

/-! ## The frame -/

/-- Indices 0 to 31 of a frame are the header (R57). -/
theorem slice_frame_eq_enc32 (D : List Byte) : slice (frame D) 0 32 = enc32 (BitVec.ofNat 32 (8 * D.length)) := by
  rw [frame, slice_append_left _ _ _ _ (by simp), slice_to_end _ _ (by simp)]

/-- What follows a frame's header is the serialised payload (R57). -/
theorem getElem?_frame_payload (D : List Byte) (n : Nat) : (frame D)[32 + n]? = (ser D)[n]? := by
  rw [frame, List.getElem?_append_right (by simp), length_enc32, Nat.add_sub_cancel_left]

/-! ## The obligations -/

/-- Settles O14: `getElem_enc32` places every bit, and the four bytes' bits stand in the same places. -/
theorem headerIsBigEndian : Obligations.HeaderIsBigEndian := by
  refine ⟨fun L => ⟨length_enc32 L, fun j hj => ?_, enc32_eq_ser_bigEndianU32 L⟩, by decide, by decide, by decide, by decide,
    by decide, enc32_eq_ser_bigEndianU32 _⟩
  rw [List.getElem?_eq_getElem (by simpa using hj), getElem_enc32]

/-- Settles O16: a frame is the header followed by the serialised payload, whose bits `getElem_ser` places; eight times a length
below `2 ^ 29` is a header value. -/
theorem frameLayout : Obligations.FrameLayout := by
  refine ⟨fun D h => ⟨length_frame D, slice_frame_eq_enc32 D, ?_, fun i j hi hj => ?_⟩, by decide, by decide⟩
  · simpa using slice_frame_header D [] h
  · rw [Nat.add_assoc, getElem?_frame_payload, ← getElem_ser D i j hi hj]
    exact List.getElem?_eq_getElem _

end Sys2Proof.Machine
end

section
/-! PROOFS of the distributor family (spec/42_lsb_distributor.md R60, R61): the value of LOWMASK, and MASK as its complement in
the 8 bits of a sample. -/

namespace Sys2Proof.Machine

/-! ## The masks -/

theorem toNat_lowmask (k : LsbWidth) : (lowmask k).toNat = 2 ^ k.bits - 1 := by cases k <;> rfl

theorem mask_eq_not_lowmask (k : LsbWidth) : mask k = ~~~lowmask k := BitVec.allOnes_xor

/-- No bit stands in both masks (R61). -/
theorem mask_and_lowmask (k : LsbWidth) : mask k &&& lowmask k = 0x00#8 := by
  rw [mask_eq_not_lowmask, BitVec.and_comm, BitVec.and_not_self]
  rfl

/-- Every bit of a sample stands in one of the masks (R61). -/
theorem mask_or_lowmask (k : LsbWidth) : mask k ||| lowmask k = 0xFF#8 := by
  rw [mask_eq_not_lowmask, BitVec.or_comm, BitVec.or_not_self]
  rfl

/-! ## The obligations -/

/-- Settles O18: the four values are computed; at every k, MASK is the bitwise complement of LOWMASK. -/
theorem masksSplitTheSample : Obligations.MasksSplitTheSample :=
  ⟨rfl, rfl, rfl, rfl, fun k => ⟨toNat_lowmask k, rfl, mask_and_lowmask k, mask_or_lowmask k⟩⟩

end Sys2Proof.Machine
end

section
/-! PROOFS of the embed family (spec/44_embed.md R77): the capacity check of `EMBED`, each of its two sides and its corner cases. -/

namespace Sys2Proof.Machine

/-! ## The figures -/

theorem State.required_eq (s : State) : s.required = 32 + 8 * s.plen.toNat := rfl

theorem State.available_eq (s : State) (k : LsbWidth) : s.available k = s.npix.toNat * 3 * k.bits := rfl

/-! ## The two sides of the capacity check -/

section
variable {k : LsbWidth} {nch : BitVec 3} (hn : nchLegal nch = true) {s : State}
include hn

/-- Where the frame fits, `EMBED` writes the walk's output and reports `OK` (R75). -/
theorem exec_embed_of_fits (h : s.required ≤ s.available k) : exec (.embed k nch) s = .next ((s.setBytes .xout
    (embedWalk k nch.toNat (frame s.payload) (s.readByte .xin) s.npix.toNat s.xout).out).report .ok 0 0
      s.required (s.available k)) := by
  rw [exec_embed, embedOn_eq wholeBuffers_platform s k hn, if_neg (Nat.not_lt.2 h)]

/-- Where the frame does not fit, `EMBED` takes CapacityError with both figures (R77). -/
theorem exec_embed_of_not_fits (h : s.required > s.available k) :
    exec (.embed k nch) s = .next (s.raise .capacity s.required (s.available k)) := by
  rw [exec_embed, embedOn_eq wholeBuffers_platform s k hn, if_pos h]

/-- The figures of a CapacityError fit `REQ` and `AVAIL` (spec/10_state.md R18), so it is reported exactly. -/
theorem takesException_capacity (h : s.required > s.available k) :
    takesException s (exec (.embed k nch) s) .capacity s.required (s.available k) := by
  have hreq := required_lt s
  have havail := available_lt s k
  rw [exec_embed_of_not_fits hn h]
  exact takesException_raise s .capacity (by omega) (by omega)

/-- Equality of the two figures succeeds (R77). -/
theorem exec_embed_ok_iff :
    (∃ t, exec (.embed k nch) s = .next t ∧ t.status = Status.ok.word) ↔ s.required ≤ s.available k := by
  refine ⟨fun ⟨t, ht, hok⟩ => ?_, fun h => ⟨_, exec_embed_of_fits hn h, rfl⟩⟩
  by_contra hc
  rw [exec_embed_of_not_fits hn (Nat.lt_of_not_le hc)] at ht
  cases ht
  exact Status.word_raised_ne_ok .capacity hok

end

/-! ## The corner cases -/

/-- An image of no pixels holds no stream bits (R77). -/
theorem State.available_of_no_pixels {s : State} (h : s.npix = 0) (k : LsbWidth) : s.available k = 0 := by
  simp [State.available_eq, h]

/-- The empty payload's frame is its header (R77). -/
theorem State.required_of_empty {s : State} (h : s.plen = 0) : s.required = 32 := by
  simp [State.required_eq, h]

/-- The 32 header bits need 11 pixels at k = 1, of 3 bits each (R77). -/
theorem header_fits_k1_iff (s : State) : 32 ≤ s.available .k1 ↔ 11 ≤ s.npix.toNat := by
  simp only [State.available_eq, LsbWidth.bits]
  omega

/-- The 32 header bits need 6 pixels at k = 2, of 6 bits each (R77). -/
theorem header_fits_k2_iff (s : State) : 32 ≤ s.available .k2 ↔ 6 ≤ s.npix.toNat := by
  simp only [State.available_eq, LsbWidth.bits]
  omega

/-! ## The obligations -/

/-- Settles O24: the two sides of the capacity check, and the figures of an image of no pixels and of the empty payload. -/
theorem embedCapacityCheck : Obligations.EmbedCapacityCheck := by
  refine ⟨fun k nch s hn => ⟨exec_embed_ok_iff hn, takesException_capacity hn⟩, fun k nch s hn h0 => ?_,
    fun nch s hn hp => ⟨?_, ?_⟩⟩
  · have havail := State.available_of_no_pixels h0 k
    have hshort : s.required > s.available k := by rw [havail, State.required_eq]; omega
    have hraise := takesException_capacity hn hshort
    rwa [havail] at hraise
  · rw [← header_fits_k1_iff, ← State.required_of_empty hp]
    exact exec_embed_ok_iff (k := .k1) hn
  · rw [← header_fits_k2_iff, ← State.required_of_empty hp]
    exact exec_embed_ok_iff (k := .k2) hn

end Sys2Proof.Machine
end

section
/-! PROOFS of the extract family (spec/45_extract.md R83 to R88): the collected stream in closed form; what `EXTRACT` does with a
stream that has a header, and the state it leaves when it completes; and the stream collected from an image `EMBED` wrote. -/

namespace Sys2Proof.Machine

/-! ## The collected stream -/

/-- The bits of a carrier of the image end within what the image holds (spec/43_channel_mux.md R72, R73). -/
theorem carrier_end_le_available {s : State} {k : LsbWidth} {q : Nat} (hq : q < 3 * s.npix.toNat) :
    q * k.bits + k.bits ≤ s.available k := by
  rw [State.available_eq, Nat.mul_comm s.npix.toNat, ← Nat.succ_mul]
  exact Nat.mul_le_mul_right _ hq

/-- Index `q k + j` of the collected stream is bit `k - 1 - j` of the sample of carrier `q` (R83). -/
theorem getElem?_collected_carrier (s : State) (k : LsbWidth) (nch : Nat) {q j : Nat} (hq : q < 3 * s.npix.toNat)
    (hj : j < k.bits) : (s.collected k nch)[q * k.bits + j]? =
      some ((s.readByte .xin (carrierAddr nch q)).getLsbD (k.bits - 1 - j)) := by
  have hend := carrier_end_le_available (k := k) hq
  have hcarrier : streamCarrier k (q * k.bits + j) = q := by
    rw [streamCarrier, Nat.mul_comm, Nat.mul_add_div k.bits_pos, Nat.div_eq_of_lt hj, Nat.add_zero]
  have hbit : streamSampleBit k (q * k.bits + j) = k.bits - 1 - j := by
    rw [streamSampleBit, Nat.mul_comm, Nat.mul_add_mod, Nat.mod_eq_of_lt hj]
  rw [getElem?_collected s k nch _ (by omega), hcarrier, hbit]

/-- The k bits of carrier `q` are the group of its sample's low bits (R83). -/
theorem slice_collected_carrier (s : State) (k : LsbWidth) (nch : Nat) {q : Nat} (hq : q < 3 * s.npix.toNat) :
    slice (s.collected k nch) (q * k.bits) (q * k.bits + k.bits) =
      ungroup (ext (s.readByte .xin (carrierAddr nch q)) k) k := by
  have hend := carrier_end_le_available (k := k) hq
  apply List.ext_getElem
  · rw [length_slice, length_ungroup, length_collected]
    omega
  · intro j _ hj
    rw [length_ungroup] at hj
    have hlow : k.bits - 1 - j < k.bits := by omega
    obtain ⟨_, hbit⟩ := List.getElem?_eq_some_iff.1 (getElem?_collected_carrier s k nch hq hj)
    simp [ungroup, testBit_ext, hlow, hbit]

/-! ## What `EXTRACT` does with a stream that has a header -/

/-- `L`, the payload bits the collected stream declares (R85). -/
def State.declared (s : State) (k : LsbWidth) (nch : Nat) : Nat := dec32 (slice (s.collected k nch) 0 32)

/-- The declared payload bits that are there: `S[32 .. min(32 + L, T))` (R85, R87). -/
def State.delivered (s : State) (k : LsbWidth) (nch : Nat) : Bits :=
  slice (s.collected k nch) 32 (min (32 + s.declared k nch) (s.available k))

/-- The state a completed `EXTRACT` leaves: the whole bytes of the delivered bits in `POUT`, and the figures (R85, R87). -/
def State.extracted (s : State) (k : LsbWidth) (nch : Nat) : State :=
  (s.writeBytes .pout (desGroups (s.delivered k nch))).report .ok ((s.delivered k nch).length / 8) 0
    (32 + s.declared k nch) (s.available k)

theorem State.declared_lt (s : State) (k : LsbWidth) (nch : Nat) : s.declared k nch < 2 ^ 32 := dec32_lt _

theorem State.length_delivered (s : State) (k : LsbWidth) (nch : Nat) :
    (s.delivered k nch).length = min (32 + s.declared k nch) (s.available k) - 32 := by
  rw [State.delivered, length_slice, length_collected]
  omega

/-- Where the declared bits fit, all of them are delivered (R85). -/
theorem State.length_delivered_of_fits {s : State} {k : LsbWidth} {nch : Nat}
    (h : 32 + s.declared k nch ≤ s.available k) : (s.delivered k nch).length = s.declared k nch := by
  rw [State.length_delivered]
  omega

section
variable {pf : Config.Platform} {s : State} {k : LsbWidth} {nch : BitVec 3} (hn : nchLegal nch = true)
include hn

/-- A header missing is an exception under every policy (R84). -/
theorem takesException_headerShort (hw : wholeBuffers pf) (h : s.available k < 32) :
    takesException s (extractOn pf k nch s) (.format .headerShort) 32 (s.available k) := by
  rw [extractOn_eq hw s k hn, extractFrom_short s _ (by simpa using h), length_collected]
  exact takesException_raise s _ (by norm_num) (by omega)

variable (hw : wholeBuffers pf) (h32 : 32 ≤ s.available k)
include hw h32

/-- Past the header, `EXTRACT` refuses one of the two anomalies under `STRICT`, or completes (R85 to R87). -/
theorem extractOn_of_header : extractOn pf k nch s =
    if pf.policy = .strict ∧ 32 + s.declared k nch.toNat > s.available k then
      .next (s.raise (.format .bodyShort) (32 + s.declared k nch.toNat) (s.available k))
    else if pf.policy = .strict ∧ s.declared k nch.toNat % 8 ≠ 0 then
      .next (s.raise (.format .unaligned) (32 + s.declared k nch.toNat) (s.available k))
    else .next (s.extracted k nch.toNat) := by
  have hT := available_lt s k
  rw [State.extracted, State.length_delivered, extractOn_eq hw s k hn,
    extractFrom_eq hw s _ (by rwa [length_collected]) (by rwa [length_collected]), length_collected]
  rfl

/-- `EXTRACT` completes under `LENIENT`, and under every policy where the declared bits fit and are whole bytes (R85, R87). -/
theorem extractOn_eq_extracted (hok : pf.policy = .lenient ∨
    32 + s.declared k nch.toNat ≤ s.available k ∧ s.declared k nch.toNat % 8 = 0) :
    extractOn pf k nch s = .next (s.extracted k nch.toNat) := by
  rw [extractOn_of_header hn hw h32]
  rcases hok with hp | ⟨hfit, hr⟩
  · simp [hp]
  · rw [if_neg (by omega), if_neg (by omega)]

/-- Under `STRICT` a declared length past the stream's end is BODY_SHORT, aligned or not (R86 a). -/
theorem takesException_bodyShort (hp : pf.policy = .strict) (h : 32 + s.declared k nch.toNat > s.available k) :
    takesException s (extractOn pf k nch s) (.format .bodyShort) (32 + s.declared k nch.toNat) (s.available k) := by
  have hL := s.declared_lt k nch.toNat
  have hT := available_lt s k
  rw [extractOn_of_header hn hw h32, if_pos ⟨hp, h⟩]
  exact takesException_raise s _ (by omega) (by omega)

/-- Under `STRICT` a declared length that fits but is not whole bytes is UNALIGNED (R86 b). -/
theorem takesException_unaligned (hp : pf.policy = .strict) (h : 32 + s.declared k nch.toNat ≤ s.available k)
    (hr : s.declared k nch.toNat % 8 ≠ 0) :
    takesException s (extractOn pf k nch s) (.format .unaligned) (32 + s.declared k nch.toNat) (s.available k) := by
  have hL := s.declared_lt k nch.toNat
  have hT := available_lt s k
  rw [extractOn_of_header hn hw h32, if_neg (by omega), if_pos ⟨hp, hr⟩]
  exact takesException_raise s _ (by omega) (by omega)

end

/-! ## The state a completed `EXTRACT` leaves -/

section
variable (s : State) (k : LsbWidth) (nch : Nat)

/-- The figures of a completed `EXTRACT` fit their registers (spec/10_state.md R18). -/
theorem State.extracted_reports : (s.extracted k nch).reports .ok ((s.delivered k nch).length / 8) 0
    (32 + s.declared k nch) (s.available k) := by
  have hL := s.declared_lt k nch
  have hT := available_lt s k
  have hB := s.length_delivered k nch
  exact State.report_reports _ _ _ _ _ _ (by omega) (by norm_num) (by omega) (by omega)

/-- `POUT` after `EXTRACT`: the delivered bits' whole bytes, and above them what was there. -/
theorem State.readByte_extracted (a : Nat) : (s.extracted k nch).readByte .pout a =
    if h : a < (desGroups (s.delivered k nch)).length then (desGroups (s.delivered k nch))[a] else s.readByte .pout a := by
  rw [State.extracted, State.report_readByte, State.readByte_writeBytes]

/-- Every bit of every byte delivered stands in the collected stream (R85). -/
theorem State.getElem?_collected_extracted {i j : Nat} (hi : i < (s.delivered k nch).length / 8) (hj : j < 8) :
    (s.collected k nch)[32 + 8 * i + j]? = some (((s.extracted k nch).readByte .pout i).getLsbD (7 - j)) := by
  have hi' : i < (desGroups (s.delivered k nch)).length := by simpa using hi
  rw [State.readByte_extracted, dif_pos hi', getLsbD_desGroups _ _ _ hi' hj]
  simp only [State.delivered, getElem_slice, ← Nat.add_assoc]
  exact List.getElem?_eq_getElem _

/-- `POUT` above the bytes delivered is kept (R85). -/
theorem State.readByte_extracted_above {a : Nat} (ha : (s.delivered k nch).length / 8 ≤ a) :
    (s.extracted k nch).readByte .pout a = s.readByte .pout a := by
  rw [State.readByte_extracted, dif_neg (by simpa using ha)]

/-- All that a completed `EXTRACT` of `n` whole bytes reports, writes and keeps (R85, R87). -/
theorem State.extracted_spec {n : Nat} (hn : (s.delivered k nch).length / 8 = n) :
    (s.extracted k nch).reports .ok n 0 (32 + s.declared k nch) (s.available k) ∧
    (∀ i < n, ∀ j < 8,
      (s.collected k nch)[32 + 8 * i + j]? = some (((s.extracted k nch).readByte .pout i).getLsbD (7 - j))) ∧
    (∀ a, n ≤ a → (s.extracted k nch).readByte .pout a = s.readByte .pout a) ∧
    s.hostSideKept (s.extracted k nch) ∧ s.inputsKept (s.extracted k nch) ∧
    s.bitBufKept (s.extracted k nch) .bout ∧ s.byteBufKept (s.extracted k nch) .xout := by
  subst hn
  exact ⟨s.extracted_reports k nch, fun _ hi _ hj => s.getElem?_collected_extracted k nch hi hj,
    fun _ ha => s.readByte_extracted_above k nch ha,
    State.hostSideKept_report.2 (s.hostSideKept_setBytes ..),
    State.inputsKept_report.2 (s.inputsKept_setBytes _ (by decide) (by decide)),
    fun a => by simp [State.extracted], fun a => by simp [State.extracted]⟩

end

/-! ## The stream collected from an image `EMBED` wrote -/

/-- A bit of a group is the stream bit it was made of (spec/42_lsb_distributor.md R62). -/
theorem testBit_group (F : Bits) (k : LsbWidth) {i j : Nat} (h : i + k.bits ≤ F.length) (hj : j < k.bits) :
    (group F i k).testBit (k.bits - 1 - j) = F[i + j] := by
  have hl : (slice F i (i + k.bits)).length = k.bits := by simp; omega
  have hplace : k.bits - 1 - (k.bits - 1 - j) = j := by omega
  rw [group, testBit_msbNumber _ _ (by omega), getElem_slice]
  simp only [hl, hplace]

/-- A carrier's output sample holds in bit `k - 1 - j` the frame bit `q k + j` (spec/44_embed.md R78). -/
theorem getLsbD_carrierOut (F : Bits) (k : LsbWidth) {q j : Nat} (x : Sample) (h : q * k.bits + k.bits ≤ F.length)
    (hj : j < k.bits) : (carrierOut F k q x).getLsbD (k.bits - 1 - j) = F[q * k.bits + j] := by
  rw [carrierOut, if_pos (by omega), getLsbD_ins _ _ _ (group_lt ..), if_pos (by omega), testBit_group F k h hj]

/-- The pixel at a carrier's place (spec/43_channel_mux.md R69). -/
theorem carrierAddr_div {nch : Nat} (hn : 3 ≤ nch) (q : Nat) : carrierAddr nch q / nch = q / 3 := by
  have hc : q % 3 < nch := by omega
  rw [show carrierAddr nch q = q % 3 + q / 3 * nch from Nat.add_comm .., Nat.add_mul_div_right _ _ (by omega),
    Nat.div_eq_of_lt hc, Nat.zero_add]

/-- The channel at a carrier's place (spec/43_channel_mux.md R69). -/
theorem carrierAddr_mod {nch : Nat} (hn : 3 ≤ nch) (q : Nat) : carrierAddr nch q % nch = q % 3 := by
  rw [show carrierAddr nch q = q % 3 + q / 3 * nch from Nat.add_comm .., Nat.add_mul_mod_self_right,
    Nat.mod_eq_of_lt (by omega)]

/-- The output sample of carrier `q`, where it stands (spec/44_embed.md R78). -/
theorem readByte_embedded_carrier (s : State) (k : LsbWidth) {nch : Nat} (hn : 3 ≤ nch) {q : Nat}
    (hq : carrierAddr nch q < s.npix.toNat * nch) :
    (s.setBytes .xout (embedWalk k nch (frame s.payload) (s.readByte .xin) s.npix.toNat s.xout).out).readByte .xout
      (carrierAddr nch q) = carrierOut (frame s.payload) k q (s.readByte .xin (carrierAddr nch q)) := by
  rw [readByte_embedded s k hn, if_pos hq, carrierAddr_div hn, carrierAddr_mod hn, pixelOut,
    if_pos (Nat.mod_lt _ (by norm_num)), Nat.div_add_mod]

/-- A carrier of one of `npix` pixels stands within their samples (spec/43_channel_mux.md R69). -/
theorem carrierAddr_lt {nch npix q : Nat} (hn : 3 ≤ nch) (hq : q < 3 * npix) : carrierAddr nch q < npix * nch := by
  have hpixel : (q / 3 + 1) * nch ≤ npix * nch := Nat.mul_le_mul_right _ (by omega)
  have hc : q % 3 < 3 := Nat.mod_lt _ (by norm_num)
  rw [Nat.add_mul] at hpixel
  show q / 3 * nch + q % 3 < npix * nch
  omega

/-- The whole group a stream index belongs to ends within a stream of whole groups (spec/20_memory.md R32 b). -/
theorem streamCarrier_group_le {k : LsbWidth} {n i : Nat} (hdvd : k.bits ∣ n) (hi : i < n) :
    streamCarrier k i * k.bits + k.bits ≤ n := by
  obtain ⟨m, rfl⟩ := hdvd
  have hcarrier : streamCarrier k i < m := Nat.div_lt_of_lt_mul hi
  rw [Nat.mul_comm k.bits m, ← Nat.succ_mul]
  exact Nat.mul_le_mul_right _ hcarrier

/-- The carrier of a stream index an image holds is one of the image's (spec/43_channel_mux.md R72, R73). -/
theorem streamCarrier_lt {s : State} {k : LsbWidth} {i : Nat} (hi : i < s.available k) :
    streamCarrier k i < 3 * s.npix.toNat := by
  refine Nat.div_lt_of_lt_mul (hi.trans_eq ?_)
  rw [State.available_eq, Nat.mul_comm k.bits, Nat.mul_comm 3]

/-- The stream collected from an image whose carriers are those `EMBED` writes begins with the frame (R88). -/
theorem frame_prefix_collected {s u : State} {k : LsbWidth} {nch : Nat} (hfit : s.required ≤ s.available k)
    (hx : u.npix = s.npix) (hX : ∀ q < 3 * s.npix.toNat, u.readByte .xin (carrierAddr nch q) =
      carrierOut (frame s.payload) k q (s.readByte .xin (carrierAddr nch q))) :
    frame s.payload <+: u.collected k nch := by
  rw [List.prefix_iff_getElem?]
  intro i hi
  have hq : streamCarrier k i < 3 * s.npix.toNat := streamCarrier_lt ((length_frame_payload s ▸ hi).trans_le hfit)
  have hj : i % k.bits < k.bits := Nat.mod_lt _ k.bits_pos
  have hsplit : streamCarrier k i * k.bits + i % k.bits = i := Nat.div_add_mod' i k.bits
  have hbit := getElem?_collected_carrier u k nch (hx ▸ hq) hj
  rw [hX _ hq, getLsbD_carrierOut _ k _ (streamCarrier_group_le (bits_dvd_frame s k) hi) hj] at hbit
  simpa only [hsplit] using hbit

/-- A stream that begins with the frame of a payload declares its length and delivers it (R88). -/
theorem State.delivered_of_frame {u : State} {k : LsbWidth} {nch : Nat} {D : List Byte} (hD : D.length < 2 ^ 29)
    (hS : frame D <+: u.collected k nch) :
    u.declared k nch = 8 * D.length ∧ 32 + u.declared k nch ≤ u.available k ∧ u.delivered k nch = ser D := by
  obtain ⟨X, hS⟩ := hS
  have hL : u.declared k nch = 8 * D.length := by rw [State.declared, ← hS, slice_frame_header D X hD]
  have hfit : 32 + u.declared k nch ≤ u.available k := by
    rw [hL, ← length_collected u k nch, ← hS, List.length_append, length_frame]
    omega
  refine ⟨hL, hfit, ?_⟩
  rw [State.delivered, Nat.min_eq_left hfit, hL, ← hS, slice_frame_payload]

/-! ## The obligations -/

/-- Settles O22: the length, and the stream read one carrier and one index at a time. -/
theorem collectedStreamClosedForm : Obligations.CollectedStreamClosedForm := fun k nch s =>
  ⟨length_collected s k nch, fun _ => slice_collected_carrier s k nch, getElem?_collected s k nch⟩

/-- Settles O30: the declared bits fit and are whole bytes, so under both policies `EXTRACT` leaves the same `extracted` state. -/
theorem extractRecoversTheDeclaredPayload : Obligations.ExtractRecoversTheDeclaredPayload := by
  intro k nch s hn S L h32 hfit hr
  have hlen : (s.delivered k nch.toNat).length / 8 = L / 8 := by rw [State.length_delivered_of_fits hfit]; rfl
  refine ⟨s.extracted k nch.toNat, ?_, ?_, s.extracted_spec k nch.toNat hlen⟩
  · rw [exec_extract]
    exact extractOn_eq_extracted hn wholeBuffers_platform h32 (.inr ⟨hfit, hr⟩)
  · rw [commandOn_extract]
    exact extractOn_eq_extracted hn (wholeBuffers_platformWith _) h32 (.inl rfl)

/-- Settles O31: a collected stream without a header raises before the policy is looked at; the pixel bounds are arithmetic. -/
theorem extractNeedsAHeader : Obligations.ExtractNeedsAHeader := by
  refine ⟨fun p k nch s hn h => ⟨?_, ?_⟩, fun n => ?_, fun p k nch s hn h0 => ?_⟩
  · rw [commandOn_extract]
    exact takesException_headerShort hn (wholeBuffers_platformWith p) h
  · rw [exec_extract]
    exact takesException_headerShort hn wholeBuffers_platform h
  · simp only [LsbWidth.bits]
    omega
  · have hT := State.available_of_no_pixels h0 k
    have hshort := takesException_headerShort hn (wholeBuffers_platformWith p) (show s.available k < 32 by omega)
    rwa [hT, ← commandOn_extract] at hshort

/-- Settles O32: the two anomalies, in their order, and the boundary 32 + L = T, which is none. -/
theorem extractRefusesMalformedStreams : Obligations.ExtractRefusesMalformedStreams := by
  intro k nch s hn h32 L T
  rw [exec_extract]
  refine ⟨takesException_bodyShort hn wholeBuffers_platform h32 rfl,
    takesException_unaligned hn wholeBuffers_platform h32 rfl, fun hT hr => ⟨s.extracted k nch.toNat, ?_, rfl⟩⟩
  exact extractOn_eq_extracted hn wholeBuffers_platform h32 (.inr ⟨hT.le, hr⟩)

/-- Settles O33: under `LENIENT` the `extracted` state is reached from every stream with a header. -/
theorem lenientExtractTruncates : Obligations.LenientExtractTruncates := by
  intro k nch s hn h32 S L T n
  have hlen : (s.delivered k nch.toNat).length / 8 = n := by rw [State.length_delivered]; rfl
  refine ⟨s.extracted k nch.toNat, ?_, s.extracted_spec k nch.toNat hlen⟩
  rw [commandOn_extract]
  exact extractOn_eq_extracted hn (wholeBuffers_platformWith _) h32 (.inl rfl)

/-- Settles O34: the stream collected from the embedded image begins with the payload's frame, so `EXTRACT` delivers the serialised
payload, whose bytes are the payload. -/
theorem embedThenExtractRecoversThePayload : Obligations.EmbedThenExtractRecoversThePayload := by
  intro p k nch s hn (hfit : s.required ≤ s.available k)
  have hw := wholeBuffers_platformWith p
  have hD : s.payload.length < 2 ^ 29 := by simpa using s.plen.isLt
  refine ⟨_, by rw [commandOn_embed, embedOn_eq hw s k hn, if_neg (Nat.not_lt.2 hfit)], rfl, fun u hx hX => ?_⟩
  have h3 := three_le_of_legal hn
  have hcarriers : ∀ q < 3 * s.npix.toNat, u.readByte .xin (carrierAddr nch.toNat q) =
      carrierOut (frame s.payload) k q (s.readByte .xin (carrierAddr nch.toNat q)) := fun q hq => by
    have hq := carrierAddr_lt h3 hq
    rw [hX _ hq, State.report_readByte, readByte_embedded_carrier s k h3 hq]
  obtain ⟨hL, hu, hB⟩ := State.delivered_of_frame hD (frame_prefix_collected hfit hx hcarriers)
  refine ⟨u.extracted k nch.toNat, ?_, rfl, ?_, fun i hi => ?_⟩
  · rw [commandOn_extract]
    exact extractOn_eq_extracted hn hw (by omega) (.inr ⟨hu, by omega⟩)
  · rw [State.extracted, hB]
    simp
  · rw [State.readByte_extracted]
    simp [hB, desGroups_ser, hi, State.payload]

end Sys2Proof.Machine
end

section
/-! PROOFS of the exceptions family (spec/60_exceptions.md R90, R94): the rows of the exception table, one command at a time on any
platform with whole buffers, and the words that issue them. -/

namespace Sys2Proof.Machine

/-- A command completes `OK` (spec/10_state.md R13). -/
def completesOk (o : Host.Outcome State Fault Refusal) : Prop := ∃ t, o = .next t ∧ t.status = Status.ok.word

theorem completesOk_report (s : State) (olen oblen req avail : Nat) :
    completesOk (.next (s.report .ok olen oblen req avail)) := ⟨_, rfl, rfl⟩

/-! ## The decoder lets legal channel counts through only (spec/30_encoding.md R41) -/

theorem nchLegal_of_decode_embed {w : Byte} {k : LsbWidth} {nch : BitVec 3} (h : decode w = .ok (.embed k nch)) :
    nchLegal nch = true := by
  cases k <;>
  · obtain ⟨⟨-, -, -, hn⟩, rfl⟩ := decode_eq_iff.1 h
    exact hn

theorem nchLegal_of_decode_extract {w : Byte} {k : LsbWidth} {nch : BitVec 3} (h : decode w = .ok (.extract k nch)) :
    nchLegal nch = true := by
  cases k <;>
  · obtain ⟨⟨-, -, -, hn⟩, rfl⟩ := decode_eq_iff.1 h
    exact hn

/-! ## The rows of the table, command by command -/

section
variable {pf : Config.Platform} (hw : wholeBuffers pf) (s : State)
include hw

/-- `BYTES_TO_BITS` is in no row. -/
theorem bytesToBitsOn_completesOk : completesOk (bytesToBitsOn pf s) := by
  rw [bytesToBitsOn_eq hw]
  exact completesOk_report ..

/-- The row of `BITS_TO_BYTES` under `STRICT`. -/
theorem bitsToBytesOn_row_strict (hp : pf.policy = .strict) :
    if s.blen.toNat % 8 ≠ 0 then takesException s (bitsToBytesOn pf s) (.format .unaligned) 0 0
    else completesOk (bitsToBytesOn pf s) := by
  split_ifs with hr
  · rw [bitsToBytesOn_eq_raise hw s hr hp]
    exact takesException_raise s _ (by norm_num) (by norm_num)
  · rw [bitsToBytesOn_eq_ok hw s (.inl (not_not.1 hr))]
    exact completesOk_report ..

/-- The row of `BITS_TO_BYTES` is `STRICT` only. -/
theorem bitsToBytesOn_completesOk_lenient (hp : pf.policy = .lenient) : completesOk (bitsToBytesOn pf s) := by
  rw [bitsToBytesOn_eq_ok hw s (.inr hp)]
  exact completesOk_report ..

variable (k : LsbWidth) {nch : BitVec 3} (hn : nchLegal nch = true)
include hn

/-- The row of `EMBED`, under every policy. -/
theorem embedOn_row :
    if s.required > s.available k then takesException s (embedOn pf k nch s) .capacity s.required (s.available k)
    else completesOk (embedOn pf k nch s) := by
  have hreq := required_lt s
  have havail := available_lt s k
  rw [embedOn_eq hw s k hn]
  split_ifs
  · exact takesException_raise s _ (by omega) (by omega)
  · exact completesOk_report ..

/-- The rows of `EXTRACT` under `STRICT`, in the order of R95. -/
theorem extractOn_rows_strict (hp : pf.policy = .strict) :
    if s.available k < 32 then takesException s (extractOn pf k nch s) (.format .headerShort) 32 (s.available k)
    else if 32 + s.declared k nch.toNat > s.available k then
      takesException s (extractOn pf k nch s) (.format .bodyShort) (32 + s.declared k nch.toNat) (s.available k)
    else if s.declared k nch.toNat % 8 ≠ 0 then
      takesException s (extractOn pf k nch s) (.format .unaligned) (32 + s.declared k nch.toNat) (s.available k)
    else completesOk (extractOn pf k nch s) := by
  split_ifs with hshort hbody hr
  · exact takesException_headerShort hn hw hshort
  · exact takesException_bodyShort hn hw (Nat.le_of_not_lt hshort) hp hbody
  · exact takesException_unaligned hn hw (Nat.le_of_not_lt hshort) hp (Nat.le_of_not_lt hbody) hr
  · rw [extractOn_eq_extracted hn hw (Nat.le_of_not_lt hshort) (.inr ⟨Nat.le_of_not_lt hbody, not_not.1 hr⟩)]
    exact completesOk_report ..

/-- The one row of `EXTRACT` that `LENIENT` keeps. -/
theorem extractOn_row_lenient (hp : pf.policy = .lenient) :
    if s.available k < 32 then takesException s (extractOn pf k nch s) (.format .headerShort) 32 (s.available k)
    else completesOk (extractOn pf k nch s) := by
  split_ifs with hshort
  · exact takesException_headerShort hn hw hshort
  · rw [extractOn_eq_extracted hn hw (Nat.le_of_not_lt hshort) (.inl hp)]
    exact completesOk_report ..

end

/-! ## The rows that `LENIENT` keeps -/

/-- The rows under `LENIENT`, of a command that some word decodes to: CapacityError and HEADER_SHORT are taken, and where neither
is, the command completes. -/
theorem commandOn_rows_lenient {w : Byte} {i : Instr} (h : decode w = .ok i) (s : State) :
    let o := commandOn (Config.platformWith .lenient) i s
    (∀ k nch, i = .embed k nch → s.required > s.available k → takesException s o .capacity s.required (s.available k)) ∧
    (∀ k nch, i = .extract k nch → s.available k < 32 →
      takesException s o (.format .headerShort) 32 (s.available k)) ∧
    ((∀ k nch, i = .embed k nch → s.required ≤ s.available k) → (∀ k nch, i = .extract k nch → 32 ≤ s.available k) →
      completesOk o) := by
  have hw := wholeBuffers_platformWith .lenient
  refine ⟨?_, ?_, fun hfit h32 => ?_⟩
  · rintro k nch rfl hc
    have hrow := embedOn_row hw s k (nchLegal_of_decode_embed h)
    rwa [if_pos hc, ← commandOn_embed] at hrow
  · rintro k nch rfl hc
    have hrow := extractOn_row_lenient hw s k (nchLegal_of_decode_extract h) rfl
    rwa [if_pos hc, ← commandOn_extract] at hrow
  · rcases Instr_cases i with rfl | rfl | ⟨k, nch, rfl⟩ | ⟨k, nch, rfl⟩
    · exact bytesToBitsOn_completesOk hw s
    · exact bitsToBytesOn_completesOk_lenient hw s rfl
    · have hrow := embedOn_row hw s k (nchLegal_of_decode_embed h)
      rwa [if_neg (Nat.not_lt.2 (hfit k nch rfl)), ← commandOn_embed] at hrow
    · have hrow := extractOn_row_lenient hw s k (nchLegal_of_decode_extract h) rfl
      rwa [if_neg (Nat.not_lt.2 (h32 k nch rfl)), ← commandOn_extract] at hrow

/-! ## The obligations -/

/-- Settles O38: each word is its command on the state with the word in `CMD`, and each command's rows hold of any state, with the
statement's figures as `required`, `available` and `declared`; a word that spells no command takes ParamError. -/
theorem exceptionsAreTakenAsTheTableSays : Obligations.ExceptionsAreTakenAsTheTableSays := by
  intro w s s' T L
  have hw := wholeBuffers_platform
  refine ⟨fun k nch h => ?_, fun k nch h => ?_, fun h => ?_, fun h => ?_, fun c h => takesException_of_decode_error h s,
    fun i h => commandOn_rows_lenient h s'⟩
  · rw [issue_of_ok h, exec_embed]
    exact embedOn_row hw s' k (nchLegal_of_decode_embed h)
  · rw [issue_of_ok h, exec_extract]
    exact extractOn_rows_strict hw s' k (nchLegal_of_decode_extract h) rfl
  · rw [issue_of_ok h]
    exact bitsToBytesOn_row_strict hw s' rfl
  · rw [issue_of_ok h]
    exact bytesToBitsOn_completesOk hw s'

end Sys2Proof.Machine
end

section
/-! PROOFS of the encoder (spec/30_encoding.md R37 to R44): the word put together from an instruction's fields spells it, and a
word is put together again from the fields of what it spells. -/

namespace Sys2Proof

/-- The word of an `EMBED` (`op` = 2) or `EXTRACT` (`op` = 3) with a legal channel count passes every check. -/
theorem spellsWalk_commandWord {nch : BitVec 3} (hn : nchLegal nch = true) (k : LsbWidth) (op : BitVec 2) :
    SpellsWalk (commandWord 0 nch (BitVec.ofNat 2 k.bits) op) op k := by
  refine ⟨cmdRsv_commandWord .., cmdOp_commandWord .., ?_, ?_⟩
  · rw [cmdK_commandWord, decodeK_eq_some_iff]
  · rwa [cmdNch_commandWord]

/-- A word that passes every check is the word of its fields. -/
theorem SpellsWalk.commandWord_eq {w : Byte} {op : BitVec 2} {k : LsbWidth} (h : SpellsWalk w op k) :
    commandWord 0 (cmdNch w) (BitVec.ofNat 2 k.bits) op = w := by
  obtain ⟨hr, ho, hk, -⟩ := h
  rw [← (decodeK_eq_some_iff _ k).1 hk, ← ho]
  exact (congrArg (commandWord · _ _ _) hr.symm).trans (commandWord_fields w)

/-- The fields of an encoded instruction are those of its row and its operand. -/
theorem decodes_encode {i : Instr} (h : i.wellFormed = true) : Decodes (encode i) (.ok i) := by
  cases i with
  | bytesToBits => exact ⟨cmdRsv_commandWord .., cmdOp_commandWord ..⟩
  | bitsToBytes => exact ⟨cmdRsv_commandWord .., cmdOp_commandWord ..⟩
  | embedK1 nch => exact ⟨spellsWalk_commandWord h .k1 _, (cmdNch_commandWord ..).symm⟩
  | embedK2 nch => exact ⟨spellsWalk_commandWord h .k2 _, (cmdNch_commandWord ..).symm⟩
  | extractK1 nch => exact ⟨spellsWalk_commandWord h .k1 _, (cmdNch_commandWord ..).symm⟩
  | extractK2 nch => exact ⟨spellsWalk_commandWord h .k2 _, (cmdNch_commandWord ..).symm⟩

/-- What a word decodes to is well formed (R41). -/
theorem wellFormed_of_decodes {w : Byte} {i : Instr} (h : Decodes w (.ok i)) : i.wellFormed = true := by
  cases i with
  | bytesToBits | bitsToBytes => rfl
  | embedK1 nch | embedK2 nch | extractK1 nch | extractK2 nch =>
    obtain ⟨⟨-, -, -, hn⟩, rfl⟩ := h
    exact hn

/-- An instruction that carries `NCH` carries every field of its word. -/
theorem encode_of_decodes {w : Byte} {i : Instr} {n : BitVec 3} (h : Decodes w (.ok i)) (hn : i.nch? = some n) :
    encode i = w := by
  cases i with
  | bytesToBits | bitsToBytes => nomatch hn
  | embedK1 nch | embedK2 nch | extractK1 nch | extractK2 nch =>
    obtain ⟨hw, rfl⟩ := h
    exact hw.commandWord_eq

/-- A Bit Codec command carries `RSV` and `OP` of its word (R43). -/
theorem encode_of_decodes_bitCodec {w : Byte} {i : Instr} (h : Decodes w (.ok i)) (hn : i.nch? = none) :
    encode i = w &&& 0x83#8 := by
  rw [and_0x83_eq_commandWord]
  cases i with
  | bytesToBits | bitsToBytes =>
    obtain ⟨hr, ho⟩ := h
    rw [hr, ho]
    rfl
  | embedK1 nch | embedK2 nch | extractK1 nch | extractK2 nch => nomatch hn

/-- Settles O2: both directions go through the fields, which `Decodes` names for each instruction. -/
theorem encodeAndDecodeAgree : Obligations.EncodeAndDecodeAgree :=
  ⟨fun _ h => (decodes_encode h).decode_eq,
    fun _ _ h => ⟨wellFormed_of_decodes (decode_eq_iff.1 h), fun _ => encode_of_decodes (decode_eq_iff.1 h)⟩,
    fun _ _ h => encode_of_decodes_bitCodec (decode_eq_iff.1 h)⟩

/-- Settles O3: the decoder computed on each word. -/
theorem decodedCommandWords : Obligations.DecodedCommandWords := by
  unfold Obligations.DecodedCommandWords
  decide

end Sys2Proof
end

section
/-! PROOFS of the host interface (spec/10_state.md R12 to R17; spec/70_reset_and_hazards.md R106, R107): what one action of the host,
and so one step, can do; single actions in full. -/

namespace Sys2Proof.Machine

/-! ## What a step can do -/

/-- What the host's actions other than a `CMD` write and a reset can make of `s`: new operand registers and a new read value, or one
element of one buffer inside its index range, read and written. -/
def HostEdit (s t : State) : Prop :=
  (∃ plen blen npix read, t = { s with plen := plen, blen := blen, npix := npix, hostRead := read }) ∨
  (∃ b i v read, i < ByteBuf.size b ∧ t = (s.hostGets read).writeByte b i v) ∨
  (∃ b i v read, i < BitBuf.size b ∧ t = (s.hostGets read).writeBit b i v)

theorem HostEdit.registers (s : State) (plen : BitVec 29) (blen npix : BitVec 32) (read : Nat) :
    HostEdit s { s with plen := plen, blen := blen, npix := npix, hostRead := read } := .inl ⟨plen, blen, npix, read, rfl⟩

theorem HostEdit.byte (s : State) {b : ByteBuf} {i : Nat} (hi : i < b.size) (v : Byte) (read : Nat) :
    HostEdit s ((s.hostGets read).writeByte b i v) := .inr (.inl ⟨b, i, v, read, hi, rfl⟩)

theorem HostEdit.bit (s : State) {b : BitBuf} {i : Nat} (hi : i < b.size) (v : Bit) (read : Nat) :
    HostEdit s ((s.hostGets read).writeBit b i v) := .inr (.inr ⟨b, i, v, read, hi, rfl⟩)

theorem HostEdit.refl (s : State) : HostEdit s s := .registers s s.plen s.blen s.npix s.hostRead

/-- What any host action can do when it answers a next state: issue a word, reset, or edit. -/
theorem hostAct_next {pf : Config.Platform} {op : HostOp} {s t : State} (h : hostAct pf op s = .next t) :
    (∃ w, op = .writeReg .cmd w ∧ issueOn pf w s = .next t) ∨ (op = .reset ∧ t = s.applyReset) ∨ HostEdit s t := by
  cases op with
  | writeReg r v =>
    cases r with
    | cmd => exact .inl ⟨v, rfl, h⟩
    | plen | blen | npix => cases h; exact .inr (.inr (.registers ..))
    | status | olen | oblen | req | avail => cases h; exact .inr (.inr (.refl s))
  | readReg r => cases h; exact .inr (.inr (.registers ..))
  | writeByte b i v =>
    obtain ⟨hi, h⟩ := accessByte_next h
    cases h; exact .inr (.inr (.byte s hi v s.hostRead))
  | writeBit b i v =>
    obtain ⟨hi, h⟩ := accessBit_next h
    cases h; exact .inr (.inr (.bit s hi v s.hostRead))
  | readByte b i =>
    obtain ⟨-, h⟩ := accessByte_next h
    cases h; exact .inr (.inr (.registers ..))
  | readBit b i =>
    obtain ⟨-, h⟩ := accessBit_next h
    cases h; exact .inr (.inr (.registers ..))
  | copyByte dst src i =>
    obtain ⟨-, h⟩ := accessByte_next h
    obtain ⟨hi, h⟩ := accessByte_next h
    cases h; exact .inr (.inr (.byte s hi _ _))
  | copyBit dst src i =>
    obtain ⟨-, h⟩ := accessBit_next h
    obtain ⟨hi, h⟩ := accessBit_next h
    cases h; exact .inr (.inr (.bit s hi _ _))
  | reset => cases h; exact .inr (.inl ⟨rfl, rfl⟩)

/-- What a step can do when it answers a next state, the host's first action taken off its list: issue a word, reset, or edit (an
idle step edits nothing). -/
theorem step_next {s t : State} (h : step s = .next t) :
    (∃ w, issue w { s with host := s.host.tail } = .next t) ∨
    (s.host.head? = some .reset ∧ t = State.applyReset { s with host := s.host.tail }) ∨
    HostEdit { s with host := s.host.tail } t := by
  cases hh : s.host with
  | nil =>
    rw [step_idle hh] at h
    cases h
    refine .inr (.inr ?_)
    rw [List.tail_nil, ← hh]
    exact .refl s
  | cons op rest =>
    rw [step_action hh] at h
    rcases hostAct_next h with ⟨w, -, h⟩ | ⟨rfl, rfl⟩ | h
    · rw [issueOn_platform] at h
      exact .inl ⟨w, h⟩
    · exact .inr (.inl ⟨rfl, rfl⟩)
    · exact .inr (.inr h)

/-- An edit changes no engine-written register, not `CMD` and not the host's list. -/
theorem HostEdit.keeps {s t : State} (h : HostEdit s t) : s.sameResults t ∧ t.cmd = s.cmd ∧ t.host = s.host := by
  rcases h with ⟨plen, blen, npix, read, rfl⟩ | ⟨b, i, v, read, -, rfl⟩ | ⟨b, i, v, read, -, rfl⟩
  · exact ⟨⟨rfl, rfl, rfl, rfl, rfl⟩, rfl, rfl⟩
  · simp [State.sameResults, State.writeByte, State.hostGets]
  · simp [State.sameResults, State.writeBit, State.hostGets]

/-- A step takes the first action off the host's list and changes it in no other way. -/
theorem step_host {s t : State} (h : step s = .next t) : t.host = s.host.tail := by
  rcases step_next h with ⟨w, h⟩ | ⟨-, rfl⟩ | h
  · obtain ⟨-, -, -, -, -, -, -, hhost⟩ := issue_keeps h
    exact hhost
  · rfl
  · obtain ⟨-, -, hhost⟩ := h.keeps
    exact hhost

/-! ## What a host action does, one action at a time -/

section
variable {s : State}

theorem hostAct_writeByte {b : ByteBuf} {i : Nat} (hi : i < b.size) (v : Byte) :
    hostAct Config.platform (.writeByte b i v) s = .next (s.writeByte b i v) := accessByte_eq hi _

theorem hostAct_writeBit {b : BitBuf} {i : Nat} (hi : i < b.size) (v : Bit) :
    hostAct Config.platform (.writeBit b i v) s = .next (s.writeBit b i v) := accessBit_eq hi _

theorem hostAct_readByte {b : ByteBuf} {i : Nat} (hi : i < b.size) :
    hostAct Config.platform (.readByte b i) s = .next (s.hostGets (s.readByte b i).toNat) := accessByte_eq hi _

theorem hostAct_readBit {b : BitBuf} {i : Nat} (hi : i < b.size) :
    hostAct Config.platform (.readBit b i) s = .next (s.hostGets (s.readBit b i).toNat) := accessBit_eq hi _

theorem hostAct_copyByte {dst src : ByteBuf} {i : Nat} (hd : i < dst.size) (hs : i < src.size) :
    hostAct Config.platform (.copyByte dst src i) s =
      .next ((s.hostGets (s.readByte src i).toNat).writeByte dst i (s.readByte src i)) :=
  (accessByte_eq hs _).trans (accessByte_eq hd _)

theorem hostAct_copyBit {dst src : BitBuf} {i : Nat} (hd : i < dst.size) (hs : i < src.size) :
    hostAct Config.platform (.copyBit dst src i) s =
      .next ((s.hostGets (s.readBit src i).toNat).writeBit dst i (s.readBit src i)) :=
  (accessBit_eq hs _).trans (accessBit_eq hd _)

end

/-- There is no element outside the index range, on any platform (spec/10_state.md R19). -/
theorem accessByte_of_ge {pf : Config.Platform} {b : ByteBuf} {i : Nat} (h : b.size ≤ i)
    (o : Host.Outcome State Fault Refusal) : accessByte pf b i o = .fault (.noByteElement b i) := if_neg (Nat.not_lt.2 h)

theorem accessBit_of_ge {pf : Config.Platform} {b : BitBuf} {i : Nat} (h : b.size ≤ i)
    (o : Host.Outcome State Fault Refusal) : accessBit pf b i o = .fault (.noBitElement b i) := if_neg (Nat.not_lt.2 h)

/-- After a write of one element every element of every byte buffer reads as before but that one. -/
theorem State.readByte_writeByte_iff (s : State) (b c : ByteBuf) (i a : Nat) (v : Byte) :
    (s.writeByte b i v).readByte c a = if c = b ∧ a = i then v else s.readByte c a := by
  by_cases hc : c = b
  · subst hc
    simp [State.readByte_writeByte]
  · rw [if_neg (by simp [hc])]
    exact s.readByte_setBytes_other _ a hc

theorem State.readBit_writeBit_iff (s : State) (b c : BitBuf) (i a : Nat) (v : Bit) :
    (s.writeBit b i v).readBit c a = if c = b ∧ a = i then v else s.readBit c a := by
  by_cases hc : c = b
  · subst hc
    simp [State.readBit_writeBit]
  · rw [if_neg (by simp [hc])]
    exact s.readBit_setBits_other _ a hc

@[simp] theorem State.readReg_setBytes (s : State) (b : ByteBuf) (m : Memory Byte) (r : Reg) :
    (s.setBytes b m).readReg r = s.readReg r := by cases b <;> rfl

@[simp] theorem State.readReg_setBits (s : State) (b : BitBuf) (m : Memory Bit) (r : Reg) :
    (s.setBits b m).readReg r = s.readReg r := by cases b <;> rfl

/-! ## `STATUS` after a `CMD` write -/

theorem statusCode_ok_ne_zero : statusCode Status.ok.word ≠ 0 := by decide

theorem statusCode_raised_ne_zero (e : Exception) : statusCode (Status.raised e).word ≠ 0 := by
  rcases e with _ | c | c
  · decide
  · cases c <;> decide
  · cases c <;> decide

/-- Every `CMD` write ends in `OK` or an exception (spec/10_state.md R13). -/
theorem issue_status {w : Byte} {s t : State} (h : issue w s = .next t) :
    t.status = Status.ok.word ∨ ∃ e, t.status = (Status.raised e).word := by
  rcases issue_cases w s with ⟨i, -, hi⟩ | ⟨c, -, hc⟩
  · rw [hi, exec_eq] at h
    rcases commandOn_next h with ⟨e, req, avail, rfl⟩ | ⟨-, rfl⟩ | ⟨D, req, avail, -, -, -, rfl⟩ | ⟨k, nch, -, -, rfl⟩
    · exact .inr ⟨e, rfl⟩
    · exact .inl rfl
    · exact .inl rfl
    · exact .inl rfl
  · rw [hc] at h
    cases h
    exact .inr ⟨_, rfl⟩

theorem issue_statusCode_ne_zero {w : Byte} {s t : State} (h : issue w s = .next t) : statusCode t.status ≠ 0 := by
  rcases issue_status h with h | ⟨e, h⟩ <;> rw [h]
  · exact statusCode_ok_ne_zero
  · exact statusCode_raised_ne_zero e

/-! ## The obligations -/

theorem State.readReg_applyReset (s : State) (r : Reg) : s.applyReset.readReg r = 0 := by cases r <;> rfl

/-- Settles O5: every register of the reset state is 0, `CMD` writes end in a code other than NONE, and every other action keeps
`STATUS`. -/
theorem resetValuesOfEveryRegister : Obligations.ResetValuesOfEveryRegister := by
  refine ⟨fun r => by cases r <;> rfl, rfl, fun s => ⟨s.applyReset, rfl, s.readReg_applyReset, rfl⟩, fun s t h h0 => ?_,
    fun w s t => issue_statusCode_ne_zero⟩
  rcases step_next h with ⟨w, h⟩ | ⟨hr, -⟩ | h
  · exact absurd h0 (issue_statusCode_ne_zero h)
  · exact .inr hr
  · obtain ⟨⟨hstatus, -⟩, -⟩ := h.keeps
    rw [hstatus] at h0
    exact .inl h0

/-- Settles O6: a reset lists no written element and counts one epoch more. -/
theorem resetLeavesBuffersUnspecified : Obligations.ResetLeavesBuffersUnspecified := fun s =>
  ⟨s.applyReset, rfl, fun b i => by cases b <;> rfl, fun b i => by cases b <;> rfl⟩

/-- Settles O49: the numbers 1, 5, 6, 7, 8 are those of the read-only registers; a read only sets `hostRead`. -/
theorem hostReadsAndReadOnlyWritesChangeNothing : Obligations.HostReadsAndReadOnlyWritesChangeNothing := by
  refine ⟨fun r v s hr => ?_, fun r s => rfl, fun b i s hi => hostAct_readByte hi, fun b i s hi => hostAct_readBit hi,
    fun r => by cases r <;> decide⟩
  cases r with
  | status | olen | oblen | req | avail => rfl
  | cmd | plen | blen | npix => exact absurd hr (by decide)

/-- Settles O50: the write replaces one field of the state, which no other register and no buffer reads. -/
theorem hostWritesOperandRegisters : Obligations.HostWritesOperandRegisters := by
  intro r v s hr
  have hout : s.outputsKept s := ⟨fun _ => rfl, fun _ => rfl, fun _ => rfl⟩
  obtain rfl | rfl | rfl : r = .plen ∨ r = .blen ∨ r = .npix := by simpa using hr
  · refine ⟨{ s with plen := v }, rfl, rfl, fun r' hr' => ?_, s.inputsKept_refl, hout, rfl, rfl, rfl⟩
    cases r' with
    | plen => exact absurd rfl hr'
    | _ => rfl
  · refine ⟨{ s with blen := v }, rfl, rfl, fun r' hr' => ?_, s.inputsKept_refl, hout, rfl, rfl, rfl⟩
    cases r' with
    | blen => exact absurd rfl hr'
    | _ => rfl
  · refine ⟨{ s with npix := v }, rfl, rfl, fun r' hr' => ?_, s.inputsKept_refl, hout, rfl, rfl, rfl⟩
    cases r' with
    | npix => exact absurd rfl hr'
    | _ => rfl

/-- Settles O51: a write is of one element of one buffer; a copy is the read, which only sets `hostRead`, and the write. -/
theorem hostWritesOneElement : Obligations.HostWritesOneElement := by
  refine ⟨fun b i v s hi => ⟨_, hostAct_writeByte hi v, fun c a => s.readByte_writeByte_iff b c i a v,
      fun c a => s.readBit_setBytes .., s.readReg_setBytes b _, s.setBytes_host ..⟩,
    fun b i v s hi => ⟨_, hostAct_writeBit hi v, fun c a => s.readBit_writeBit_iff b c i a v,
      fun c a => s.readByte_setBits .., s.readReg_setBits b _, s.setBits_host ..⟩,
    fun dst src i s hd hs => ⟨_, _, hostAct_readByte hs, hostAct_writeByte hd _, hostAct_copyByte hd hs⟩,
    fun dst src i s hd hs => ⟨_, _, hostAct_readBit hs, hostAct_writeBit hd _, hostAct_copyBit hd hs⟩⟩

/-- Settles O52: the first element an action looks at that does not exist is the fault's. -/
theorem noElementOutsideTheIndexRange : Obligations.NoElementOutsideTheIndexRange :=
  ⟨fun _ _ _ _ hi => ⟨accessByte_of_ge hi _, accessByte_of_ge hi _⟩,
    fun _ _ _ _ hi => ⟨accessBit_of_ge hi _, accessBit_of_ge hi _⟩,
    fun _ _ _ _ hi => accessByte_of_ge hi _,
    fun _ _ _ _ hs hd => (accessByte_eq hs _).trans (accessByte_of_ge hd _),
    fun _ _ _ _ hi => accessBit_of_ge hi _,
    fun _ _ _ _ hs hd => (accessBit_eq hs _).trans (accessBit_of_ge hd _)⟩

/-- What a table word decodes to is what the command word it stands for decodes to. -/
theorem decode_of_decodeTableWord {nbits w : Nat} {i : Instr} (h : decodeTableWord nbits w = some i) :
    decode (BitVec.ofNat 8 (w % 2 ^ nbits)) = .ok i := by
  obtain ⟨word, hword, hi⟩ := Option.bind_eq_some_iff.1 h
  unfold tableWord at hword
  split_ifs at hword
  cases hword
  cases hd : decode (BitVec.ofNat 8 (w % 2 ^ nbits)) with
  | ok j =>
    rw [hd] at hi
    cases hi
    rfl
  | error c =>
    rw [hd] at hi
    cases hi

/-- A step that issues a word that decodes runs its command. -/
theorem step_of_issue {w : Byte} {i : Instr} {rest : List HostOp} {s : State} (hd : decode w = .ok i)
    (h : s.host = .writeReg .cmd w :: rest) : step s = exec i { s with host := rest, cmd := w } := by
  rw [step_action h, hostAct_writeCmd, issueOn_platform, issue_of_ok hd]

/-- Settles O53: a step is the host's first action, and a placed table word is that action. -/
theorem stepRunsTheIssuedCommand : Obligations.StepRunsTheIssuedCommand :=
  ⟨fun _ _ _ _ => step_of_issue, fun _ _ _ _ h => step_of_issue (decode_of_decodeTableWord h) rfl, fun _ _ _ => step_action⟩

/-- Settles O54: a step is the host's next action, and there is none. -/
theorem idleBlockKeepsItsState : Obligations.IdleBlockKeepsItsState := fun _ => step_idle

end Sys2Proof.Machine
end

section
/-! PROOFS of the invariants: canonical buffers (spec/10_state.md R19), engine-written registers coherent with `CMD` (R13, R15), and a
host inside the index ranges, which on this hardware never stops the machine (spec/70_reset_and_hazards.md R118). -/

namespace Sys2Proof.Machine

/-! ## Canonical buffers -/

/-- The six buffers, through the two accessors. -/
theorem State.buffersWf_iff (s : State) : s.buffersWf ↔
    (∀ b, Memory.wf (ByteBuf.size b) (s.bytes b)) ∧ ∀ b, Memory.wf (BitBuf.size b) (s.bitsOf b) := by
  refine ⟨fun ⟨hpin, hbin, hxin, hpout, hbout, hxout⟩ => ⟨fun b => ?_, fun b => ?_⟩, fun ⟨hB, hb⟩ =>
    ⟨hB .pin, hb .bin, hB .xin, hB .pout, hb .bout, hB .xout⟩⟩
  · cases b with
    | pin => exact hpin
    | xin => exact hxin
    | pout => exact hpout
    | xout => exact hxout
  · cases b with
    | bin => exact hbin
    | bout => exact hbout

/-- Replacing one buffer by a canonical one keeps all canonical. -/
theorem State.buffersWf_setBytes {s : State} (h : s.buffersWf) {b : ByteBuf} {m : Memory Byte} (hm : Memory.wf b.size m) :
    (s.setBytes b m).buffersWf := by
  obtain ⟨hB, hb⟩ := s.buffersWf_iff.1 h
  refine (State.buffersWf_iff _).2 ⟨fun c => ?_, fun c => by rw [State.bitsOf_setBytes]; exact hb c⟩
  by_cases hc : c = b
  · subst hc
    rwa [State.bytes_setBytes_same]
  · rw [State.bytes_setBytes_other s b m hc]
    exact hB c

theorem State.buffersWf_setBits {s : State} (h : s.buffersWf) {b : BitBuf} {m : Memory Bit} (hm : Memory.wf b.size m) :
    (s.setBits b m).buffersWf := by
  obtain ⟨hB, hb⟩ := s.buffersWf_iff.1 h
  refine (State.buffersWf_iff _).2 ⟨fun c => by rw [State.bytes_setBits]; exact hB c, fun c => ?_⟩
  by_cases hc : c = b
  · subst hc
    rwa [State.bitsOf_setBits_same]
  · rw [State.bitsOf_setBits_other s b m hc]
    exact hb c

theorem State.buffersWf_writeBytes {s : State} (h : s.buffersWf) {b : ByteBuf} {vs : List Byte} (hvs : vs.length ≤ b.size) :
    (s.writeBytes b vs).buffersWf :=
  s.buffersWf_setBytes h (Memory.wf_writeSeq ((s.buffersWf_iff.1 h).1 b) vs (by omega))

theorem State.buffersWf_writeBits {s : State} (h : s.buffersWf) {b : BitBuf} {vs : Bits} (hvs : vs.length ≤ b.size) :
    (s.writeBits b vs).buffersWf :=
  s.buffersWf_setBits h (Memory.wf_writeSeq ((s.buffersWf_iff.1 h).2 b) vs (by omega))

@[simp] theorem State.buffersWf_report {s : State} {st : Status} {olen oblen req avail : Nat} :
    (s.report st olen oblen req avail).buffersWf ↔ s.buffersWf := Iff.rfl

/-- A command writes its one output buffer inside its index range (spec/20_memory.md R27). -/
theorem exec_buffersWf {i : Instr} {s t : State} (hs : s.buffersWf) (h : exec i s = .next t) : t.buffersWf := by
  rw [exec_eq] at h
  rcases commandOn_next h with ⟨e, req, avail, rfl⟩ | ⟨-, rfl⟩ | ⟨D, req, avail, -, -, hD, rfl⟩ | ⟨k, nch, -, hn, rfl⟩
  · exact hs
  · refine State.buffersWf_report.2 (s.buffersWf_writeBits hs ?_)
    simpa using boutRange_le s
  · exact State.buffersWf_report.2 (s.buffersWf_writeBytes hs hD)
  · have hxout : Memory.wf (ByteBuf.size .xout) s.xout := (s.buffersWf_iff.1 hs).1 .xout
    exact State.buffersWf_report.2 (s.buffersWf_setBytes hs
      (embedWalk_wf _ k (bits_dvd_frame s k) (three_le_of_legal hn) _ _ (xinRange_le s nch) hxout))

theorem issue_buffersWf {w : Byte} {s t : State} (hs : s.buffersWf) (h : issue w s = .next t) : t.buffersWf := by
  rcases issue_cases w s with ⟨i, -, hi⟩ | ⟨c, -, hc⟩
  · rw [hi] at h
    exact exec_buffersWf (s := { s with cmd := w }) hs h
  · rw [hc] at h
    cases h
    exact hs

theorem HostEdit.buffersWf {s t : State} (hs : s.buffersWf) (h : HostEdit s t) : t.buffersWf := by
  obtain ⟨hB, hb⟩ := s.buffersWf_iff.1 hs
  rcases h with ⟨plen, blen, npix, read, rfl⟩ | ⟨b, i, v, read, hi, rfl⟩ | ⟨b, i, v, read, hi, rfl⟩
  · exact hs
  · exact (s.hostGets read).buffersWf_setBytes hs (Memory.wf_write (hB b) hi v)
  · exact (s.hostGets read).buffersWf_setBits hs (Memory.wf_write (hb b) hi v)

theorem State.reset_buffersWf : State.reset.buffersWf :=
  (State.buffersWf_iff _).2 ⟨fun b => by cases b <;> exact Memory.wf_nil _, fun b => by cases b <;> exact Memory.wf_nil _⟩

/-! ## Coherent results -/

@[simp] theorem State.okFigures_embed (s : State) (k : LsbWidth) (nch : BitVec 3) : s.okFigures (.embed k nch) ↔
    s.olen = 0 ∧ s.oblen = 0 ∧ 32 ≤ s.req.toNat ∧ s.req.toNat % 8 = 0 ∧ s.req.toNat ≤ s.avail.toNat := by cases k <;> rfl

@[simp] theorem State.okFigures_extract (s : State) (k : LsbWidth) (nch : BitVec 3) : s.okFigures (.extract k nch) ↔
    s.oblen = 0 ∧ s.req.toNat = 32 + 8 * s.olen.toNat ∧ s.req.toNat ≤ s.avail.toNat := by cases k <;> rfl

/-- An exception reported with figures it can have is coherent. -/
theorem State.resultsCoherent_of_raised {t : State} {e : Exception} {req avail : Nat}
    (h : t.reports (.raised e) 0 0 req avail) (hf : t.raiseFigures e) : t.resultsCoherent := by
  obtain ⟨hstatus, holen, hoblen, -, -⟩ := h
  exact .inr (.inr ⟨e, hstatus, BitVec.eq_of_toNat_eq holen, BitVec.eq_of_toNat_eq hoblen, hf⟩)

/-- A taken exception is coherent where the figures it records are those it can have. -/
theorem resultsCoherent_of_takesException {s t : State} {o : Host.Outcome State Fault Refusal} {e : Exception} {req avail : Nat}
    (ht : takesException s o e req avail) (h : o = .next t)
    (hf : t.cmd = s.cmd → t.req.toNat = req → t.avail.toNat = avail → t.raiseFigures e) : t.resultsCoherent := by
  obtain ⟨t', ho, hrep, ⟨hcmd, -⟩, -, -⟩ := ht
  cases ho.symm.trans h
  have ⟨_, _, _, hreq, havail⟩ := hrep
  exact State.resultsCoherent_of_raised hrep (hf hcmd hreq havail)

section
variable {s t : State}

theorem bytesToBits_resultsCoherent (hd : decode s.cmd = .ok .bytesToBits) (h : exec .bytesToBits s = .next t) :
    t.resultsCoherent := by
  have hp := s.plen.isLt
  rw [show exec .bytesToBits s = _ from bytesToBitsOn_eq wholeBuffers_platform s] at h
  cases h
  refine .inr (.inl ⟨rfl, _, hd, rfl, ?_, rfl, rfl⟩)
  simp only [State.report_oblen, BitVec.toNat_ofNat]
  omega

theorem bitsToBytes_resultsCoherent (hd : decode s.cmd = .ok .bitsToBytes) (h : exec .bitsToBytes s = .next t) :
    t.resultsCoherent := by
  rw [show exec .bitsToBytes s = _ from bitsToBytesOn_eq wholeBuffers_platform s] at h
  split_ifs at h
  · cases h
    exact .inr (.inr ⟨.format .unaligned, rfl, rfl, rfl, .inl ⟨hd, rfl, rfl⟩⟩)
  · cases h
    exact .inr (.inl ⟨rfl, _, hd, rfl, rfl, rfl⟩)

variable {k : LsbWidth} {nch : BitVec 3}

theorem embed_resultsCoherent (hd : decode s.cmd = .ok (.embed k nch)) (h : exec (.embed k nch) s = .next t) :
    t.resultsCoherent := by
  have hn := nchLegal_of_decode_embed hd
  have hreq := required_lt s
  have havail := available_lt s k
  by_cases hc : s.required > s.available k
  · refine resultsCoherent_of_takesException (takesException_capacity hn hc) h fun hcmd hr ha => ⟨⟨k, nch, ?_⟩, ?_⟩
    · rw [hcmd, hd]
    · omega
  · rw [exec_embed_of_fits hn (Nat.le_of_not_lt hc)] at h
    cases h
    refine .inr (.inl ⟨rfl, _, hd, (State.okFigures_embed ..).2 ⟨rfl, rfl, ?_⟩⟩)
    simp only [State.report_req, State.report_avail, BitVec.toNat_ofNat]
    rw [State.required_eq] at *
    omega

theorem extract_resultsCoherent (hd : decode s.cmd = .ok (.extract k nch)) (h : exec (.extract k nch) s = .next t) :
    t.resultsCoherent := by
  have hn := nchLegal_of_decode_extract hd
  have hw := wholeBuffers_platform
  have hcmd : t.cmd = s.cmd → ∃ k nch, decode t.cmd = .ok (.extract k nch) := fun hc => ⟨k, nch, by rw [hc, hd]⟩
  rw [exec_extract] at h
  by_cases hshort : s.available k < 32
  · exact resultsCoherent_of_takesException (takesException_headerShort hn hw hshort) h
      fun hc hr ha => ⟨hcmd hc, hr, by omega⟩
  have h32 := Nat.le_of_not_lt hshort
  by_cases hbody : 32 + s.declared k nch.toNat > s.available k
  · exact resultsCoherent_of_takesException (takesException_bodyShort hn hw h32 rfl hbody) h
      fun hc hr ha => ⟨hcmd hc, by omega, by omega⟩
  have hfit := Nat.le_of_not_lt hbody
  by_cases hal : s.declared k nch.toNat % 8 ≠ 0
  · exact resultsCoherent_of_takesException (takesException_unaligned hn hw h32 rfl hfit hal) h
      fun hc hr ha => .inr ⟨hcmd hc, by omega, by omega, by omega⟩
  · rw [extractOn_eq_extracted hn hw h32 (.inr ⟨hfit, not_not.1 hal⟩)] at h
    cases h
    obtain ⟨-, holen, -, hreq, havail⟩ := s.extracted_reports k nch.toNat
    rw [State.length_delivered_of_fits hfit] at holen
    exact .inr (.inl ⟨rfl, _, hd, (State.okFigures_extract ..).2 ⟨rfl, by omega, by omega⟩⟩)

/-- A command leaves results that are coherent with the word that spells it. -/
theorem exec_resultsCoherent {i : Instr} (hd : decode s.cmd = .ok i) (h : exec i s = .next t) : t.resultsCoherent := by
  rcases Instr_cases i with rfl | rfl | ⟨k, nch, rfl⟩ | ⟨k, nch, rfl⟩
  · exact bytesToBits_resultsCoherent hd h
  · exact bitsToBytes_resultsCoherent hd h
  · exact embed_resultsCoherent hd h
  · exact extract_resultsCoherent hd h

theorem issue_resultsCoherent {w : Byte} (h : issue w s = .next t) : t.resultsCoherent := by
  rcases issue_cases w s with ⟨i, hd, hi⟩ | ⟨c, hd, -⟩
  · rw [hi] at h
    exact exec_resultsCoherent (s := { s with cmd := w }) hd h
  · exact resultsCoherent_of_takesException (takesException_of_decode_error hd s) h fun hcmd hr ha =>
      ⟨by rw [hcmd, hd], BitVec.eq_of_toNat_eq hr, BitVec.eq_of_toNat_eq ha⟩

end

theorem State.reset_resultsCoherent : State.reset.resultsCoherent := .inl ⟨rfl, rfl, rfl, rfl, rfl, rfl⟩

/-- Coherence looks at `CMD` and the engine-written registers only. -/
theorem State.resultsCoherent_congr {s t : State} (h : s.sameResults t) (hcmd : t.cmd = s.cmd) (hs : s.resultsCoherent) :
    t.resultsCoherent := by
  obtain ⟨hstatus, holen, hoblen, hreq, havail⟩ := h
  have hok (i : Instr) : t.okFigures i = s.okFigures i := by
    cases i <;> simp only [State.okFigures, holen, hoblen, hreq, havail]
  have hraise (e : Exception) : t.raiseFigures e = s.raiseFigures e := by
    unfold State.raiseFigures
    rw [hcmd, hreq, havail]
  unfold State.resultsCoherent
  simp only [hcmd, hstatus, holen, hoblen, hreq, havail, hok, hraise]
  exact hs

/-! ## This hardware never stops -/

theorem readsSame_refl (i : Instr) (s : State) : readsSame i s s := by
  cases i with
  | bytesToBits | bitsToBytes => exact ⟨rfl, fun _ _ => rfl⟩
  | embedK1 nch | embedK2 nch => exact ⟨rfl, rfl, fun _ _ => rfl, fun _ _ => rfl⟩
  | extractK1 nch | extractK2 nch => exact ⟨rfl, fun _ _ _ _ => rfl⟩

/-- On whole buffers every command has a next state. -/
theorem commandOn_total {pf : Config.Platform} (hw : wholeBuffers pf) (i : Instr) (s : State) :
    ∃ t, commandOn pf i s = .next t := by
  obtain ⟨t, -, ht, -⟩ := commandOn_sameEffect hw (readsSame_refl i s)
  exact ⟨t, ht⟩

theorem exec_total (i : Instr) (s : State) : ∃ t, exec i s = .next t := by
  rw [exec_eq]
  exact commandOn_total wholeBuffers_platform i s

theorem issue_total (w : Byte) (s : State) : ∃ t, issue w s = .next t := by
  rcases issue_cases w s with ⟨i, -, hi⟩ | ⟨c, -, hc⟩
  · rw [hi]
    exact exec_total i _
  · exact ⟨_, hc⟩

theorem hostAct_total {op : HostOp} (h : op.inRange) (s : State) : ∃ t, hostAct Config.platform op s = .next t := by
  cases op with
  | writeReg r v =>
    cases r with
    | cmd =>
      rw [show hostAct Config.platform (.writeReg .cmd v) s = issueOn Config.platform v s from rfl, issueOn_platform]
      exact issue_total v s
    | status | plen | blen | npix | olen | oblen | req | avail => exact ⟨_, rfl⟩
  | readReg r => exact ⟨_, rfl⟩
  | writeByte b i v => exact ⟨_, hostAct_writeByte h v⟩
  | writeBit b i v => exact ⟨_, hostAct_writeBit h v⟩
  | readByte b i => exact ⟨_, hostAct_readByte h⟩
  | readBit b i => exact ⟨_, hostAct_readBit h⟩
  | copyByte dst src i =>
    obtain ⟨hd, hs⟩ := h
    exact ⟨_, hostAct_copyByte hd hs⟩
  | copyBit dst src i =>
    obtain ⟨hd, hs⟩ := h
    exact ⟨_, hostAct_copyBit hd hs⟩
  | reset => exact ⟨_, rfl⟩

theorem step_total {s : State} (h : ∀ op ∈ s.host, op.inRange) : ∃ t, step s = .next t := by
  cases hh : s.host with
  | nil => exact ⟨s, step_idle hh⟩
  | cons op rest =>
    rw [step_action hh]
    exact hostAct_total (h op (hh ▸ List.mem_cons_self)) _

/-- A step from a host inside the index ranges goes on to one inside them. -/
theorem step_keeps_inRange {s : State} (h : ∀ op ∈ s.host, op.inRange) :
    ∃ t, step s = .next t ∧ ∀ op ∈ t.host, op.inRange := by
  obtain ⟨t, ht⟩ := step_total h
  exact ⟨t, ht, fun op hop => h op (List.mem_of_mem_tail (step_host ht ▸ hop))⟩

/-- A run goes on as long as the host stays inside the index ranges. -/
theorem run_total (n : Nat) {s : State} (h : ∀ op ∈ s.host, op.inRange) : ∃ t, Sys2Proof.core.run n s = .next t := by
  induction n generalizing s with
  | zero => exact ⟨s, rfl⟩
  | succ n ih =>
    obtain ⟨u, hu, hin⟩ := step_keeps_inRange h
    obtain ⟨t, ht⟩ := ih hin
    have hstep : Sys2Proof.core.step s = .next u := hu
    exact ⟨t, by simpa only [Host.Core.run, hstep] using ht⟩

/-! ## The obligations -/

/-- Settles O55: a `CMD` write and an edit write inside the buffers' index ranges, and a reset empties the lists. -/
theorem buffersStayCanonical : Obligations.BuffersStayCanonical := by
  intro s t hs h
  rcases step_next h with ⟨w, h⟩ | ⟨-, rfl⟩ | h
  · exact issue_buffersWf (s := { s with host := s.host.tail }) hs h
  · exact State.reset_buffersWf
  · exact HostEdit.buffersWf (s := { s with host := s.host.tail }) hs h

/-- Settles O56: the empty list is canonical. -/
theorem resetBuffersAreCanonical : Obligations.ResetBuffersAreCanonical := State.reset_buffersWf

/-- Settles O57: every `CMD` write leaves coherent results whatever was there, a reset leaves the reset values, and no other action
changes `CMD` or a result. -/
theorem resultsStayCoherent : Obligations.ResultsStayCoherent := by
  intro s t hs h
  rcases step_next h with ⟨w, h⟩ | ⟨-, rfl⟩ | h
  · exact issue_resultsCoherent h
  · exact State.reset_resultsCoherent
  · obtain ⟨hres, hcmd, -⟩ := h.keeps
    exact State.resultsCoherent_congr hres hcmd hs

/-- Settles O58: no command has completed, and every register is 0. -/
theorem resetResultsAreCoherent : Obligations.ResetResultsAreCoherent := State.reset_resultsCoherent

/-- Settles O43: commands are total on whole buffers, and a host access inside the range reaches its element. -/
theorem thisHardwareNeverStops : Obligations.ThisHardwareNeverStops :=
  ⟨exec_total, issue_total, fun _ s h => hostAct_total h s⟩

/-- Settles O60: a step takes one action off the host's list, which is performed because it is in range. -/
theorem hostInTheRangesStaysInTheRanges : Obligations.HostInTheRangesStaysInTheRanges := fun _ => step_keeps_inRange

/-- Settles O44: by induction on the length of the run, from the invariant of O60. -/
theorem hostInsideTheRangesRunsSafely : Obligations.HostInsideTheRangesRunsSafely := fun _ h n => run_total n h

end Sys2Proof.Machine
end

section
/-! PROOFS of the codecs' laws (spec/40_bit_codec.md section 1, 41_length_codec.md, 42_lsb_distributor.md R62 to R66,
43_channel_mux.md R68 to R70): the coders are inverse, the laws of INS and EXT, and the numbering of the carriers. -/

namespace Sys2Proof.Machine

/-! ## GROUP and UNGROUP -/

theorem le_lowmask_iff (k : LsbWidth) (g : Nat) : g ≤ (lowmask k).toNat ↔ g < 2 ^ k.bits := by
  rw [toNat_lowmask, Nat.le_sub_one_iff_lt (Nat.two_pow_pos _)]

/-- A whole group is the sum of its bits' weights, the earlier bit's the greater (R62). -/
theorem group_eq_sum (k : LsbWidth) {F : Bits} {i : Nat} (h : i + k.bits ≤ F.length) :
    group F i k = ∑ j ∈ Finset.range k.bits, (F.getD (i + j) false).toNat * 2 ^ (k.bits - 1 - j) := by
  have hl : (slice F i (i + k.bits)).length = k.bits := by simp; omega
  rw [group, msbNumber_eq_sum, hl]
  refine Finset.sum_congr rfl fun j hj => ?_
  have hj := Finset.mem_range.1 hj
  have hbit : (slice F i (i + k.bits)).getD j false = F.getD (i + j) false := by
    rw [List.getD_eq_getElem _ _ (by omega), List.getD_eq_getElem _ _ (by omega), getElem_slice]
  rw [hbit]

/-- Grouping the ungrouped bits gives the group back (R63). -/
theorem group_ungroup (k : LsbWidth) {g : Nat} (hg : g < 2 ^ k.bits) : group (ungroup g k) 0 k = g := by
  rw [group, slice_to_end _ _ (by simp), ungroup_eq, msbNumber_msbBits, Nat.mod_eq_of_lt hg]

theorem getElem?_ungroup (k : LsbWidth) (g : Nat) {j : Nat} (hj : j < k.bits) :
    (ungroup g k)[j]? = some (g.testBit (k.bits - 1 - j)) := by
  rw [ungroup, List.getElem?_map, List.getElem?_range hj, Option.map_some]

/-! ## INS and EXT -/

/-- The group of a sample is its remainder by `2 ^ k` (R65). -/
theorem ext_eq_mod (x : Sample) (k : LsbWidth) : ext x k = x.toNat % 2 ^ k.bits := by
  rw [ext, BitVec.toNat_and, toNat_lowmask, Nat.and_two_pow_sub_one_eq_mod]

/-- EXT looks at the low k bits only. -/
theorem ext_congr (k : LsbWidth) {x y : Sample} (h : ∀ i < k.bits, x.getLsbD i = y.getLsbD i) : ext x k = ext y k := by
  apply Nat.eq_of_testBit_eq
  intro i
  rw [testBit_ext, testBit_ext]
  by_cases hi : i < k.bits
  · rw [h i hi]
  · simp [hi]

section
variable (x : Sample) {g : Nat} {k : LsbWidth} (hg : g < 2 ^ k.bits)
include hg

/-- The image's own bits are kept (R66 b). -/
theorem ins_and_mask : ins x g k &&& mask k = x &&& mask k := by
  apply BitVec.eq_of_getLsbD_eq
  intro i _
  rw [BitVec.getLsbD_and, BitVec.getLsbD_and, getLsbD_mask, getLsbD_ins x g k hg]
  by_cases hi : i < k.bits <;> simp [hi]

/-- A second embedding replaces the first (R66 c). -/
theorem ins_ins {h : Nat} (hh : h < 2 ^ k.bits) : ins (ins x h k) g k = ins x g k := by
  apply BitVec.eq_of_getLsbD_eq
  intro i _
  rw [getLsbD_ins _ g k hg, getLsbD_ins x g k hg, getLsbD_ins x h k hh]
  by_cases hi : i < k.bits <;> simp [hi]

/-- Above the group the number is the sample's. -/
theorem toNat_ins_div : (ins x g k).toNat / 2 ^ k.bits = x.toNat / 2 ^ k.bits := by
  apply Nat.eq_of_testBit_eq
  intro i
  rw [Nat.testBit_div_two_pow, Nat.testBit_div_two_pow, BitVec.testBit_toNat, BitVec.testBit_toNat, getLsbD_ins x g k hg,
    if_neg (by omega)]

/-- Below `2 ^ k` the number is the group. -/
theorem toNat_ins_mod : (ins x g k).toNat % 2 ^ k.bits = g := by
  rw [← ext_eq_mod, ext_ins x g k hg]

/-- The sample changes by at most LOWMASK(k) (R66 d). -/
theorem toNat_ins_bounds :
    (ins x g k).toNat ≤ x.toNat + (lowmask k).toNat ∧ x.toNat ≤ (ins x g k).toNat + (lowmask k).toNat := by
  have hd := toNat_ins_div x hg
  have hm := toNat_ins_mod x hg
  rw [toNat_lowmask]
  cases k <;>
  · simp only [LsbWidth.bits] at *
    omega

end

/-- Inserting a sample's own group changes nothing (R66). -/
theorem ins_ext_self (x : Sample) (k : LsbWidth) : ins x (ext x k) k = x := by
  apply BitVec.eq_of_getLsbD_eq
  intro i _
  rw [getLsbD_ins x _ k (ext_lt x k), testBit_ext]
  by_cases hi : i < k.bits <;> simp [hi]

/-- A group of one bit extracted as two: the sample's bit 1 comes with it (R66). -/
theorem ext_k2_ins_k1 (x : Sample) {g : Nat} (hg : g ≤ 1) : ext (ins x g .k1) .k2 = (x &&& 0x02#8).toNat + g := by
  have hg : g < 2 ^ LsbWidth.k1.bits := Nat.lt_succ_of_le hg
  have hd := toNat_ins_div x hg
  have hm := toNat_ins_mod x hg
  have hbit : (x &&& 0x02#8).toNat = x.toNat / 2 % 2 * 2 := by
    rw [BitVec.toNat_and, show (0x02#8).toNat = 2 ^ 1 from rfl, Nat.and_two_pow, Nat.toNat_testBit, pow_one]
  rw [ext_eq_mod, hbit]
  simp only [LsbWidth.bits] at *
  omega

/-- A group of two bits extracted as one: its low bit (R66). -/
theorem ext_k1_ins_k2 (x : Sample) {g : Nat} (hg : g ≤ 3) : ext (ins x g .k2) .k1 = g % 2 := by
  have hm := toNat_ins_mod (k := .k2) x (Nat.lt_succ_of_le hg)
  rw [ext_eq_mod]
  simp only [LsbWidth.bits] at *
  omega

/-! ## The Bit Codec's commands -/

/-- A machine fed the bits `BYTES_TO_BITS` wrote reads the serialised payload (spec/40_bit_codec.md section 2). -/
theorem bitstream_eq_ser_payload {s u : State} (hlen : u.blen.toNat = 8 * s.plen.toNat)
    (h : ∀ a < 8 * s.plen.toNat, u.readBit .bin a = (s.writeBits .bout (ser s.payload)).readBit .bout a) :
    u.bitstream = ser s.payload := by
  apply List.ext_getElem
  · rw [State.length_bitstream, length_ser, State.length_payload, hlen]
  · intro i hi hi'
    have ha : i < 8 * s.plen.toNat := by simpa using hi'
    simp only [State.bitstream, State.getElem_readBits]
    rw [h i ha, State.readBit_writeBits, dif_pos hi']

/-! ## The obligations -/

/-- Settles O10: what `des` answers is the whole groups, which are SER's inverse. -/
theorem bitCodecRoundTrip : Obligations.BitCodecRoundTrip := by
  refine ⟨fun p x => ?_, fun p B hB => ⟨_, des_eq_ok (.inl hB), ?_⟩, fun B => ⟨_, des_eq_ok (.inr rfl), ser_desGroups B⟩⟩
  · rw [des_eq_ok (.inl (by simp)), desGroups_ser]
  · rw [ser_desGroups, slice_to_end B _ (by omega)]

/-- Settles O13: the second command reads the serialised payload, which is aligned and deserialises to the payload. -/
theorem bitCodecCommandsCompose : Obligations.BitCodecCommandsCompose := by
  intro p s
  have hw := wholeBuffers_platformWith p
  have hp := s.plen.isLt
  refine ⟨_, bytesToBitsOn_eq hw s, fun u hblen hbin => ?_⟩
  have hoblen : (BitVec.ofNat 32 (8 * s.plen.toNat)).toNat = 8 * s.plen.toNat := Nat.mod_eq_of_lt (by omega)
  simp only [State.report_oblen, State.report_readBit] at hblen hbin
  rw [hoblen] at hbin
  have hlen : u.blen.toNat = 8 * s.plen.toNat := by rw [hblen, hoblen]
  have hstream := bitstream_eq_ser_payload hlen hbin
  refine ⟨_, bitsToBytesOn_eq_ok hw u (.inl (by omega)), rfl, ?_, fun i hi => ?_⟩
  · rw [State.report_olen, hlen, Nat.mul_div_cancel_left _ (by norm_num), BitVec.ofNat_toNat, BitVec.setWidth_eq]
  · have hi' : i < s.payload.length := by simpa using hi
    rw [State.report_readByte, hstream, desGroups_ser, State.readByte_writeBytes, dif_pos hi']
    exact s.getElem_readBytes ..

/-- Settles O15: the header is a number by its binary digits, below `2 ^ 32`. -/
theorem headerCodersAreInverse : Obligations.HeaderCodersAreInverse := by
  refine ⟨fun H h => ⟨?_, ?_, enc32_dec32 H h⟩, dec32_enc32⟩
  · rw [dec32, msbNumber_eq_sum, h]
  · rw [← h]
    exact msbNumber_lt H

/-- Settles O17: the header of the frame declares the serialised payload, which deserialises to the payload. -/
theorem frameTakenApart : Obligations.FrameTakenApart := by
  intro p D X hD S L
  have hL : L = 8 * D.length := slice_frame_header D X hD
  refine ⟨hL, ?_⟩
  rw [hL, slice_frame_payload, des_eq_ok (.inl (by simp)), desGroups_ser]

/-- Settles O19: GROUP and UNGROUP are the two readings of a number by its binary digits, k of them. -/
theorem groupAndUngroupAreInverse : Obligations.GroupAndUngroupAreInverse := by
  refine ⟨fun k F i h => ⟨group_eq_sum k h, (le_lowmask_iff k _).2 (group_lt F i k), ungroup_group F i k h⟩,
    fun k g hg => ⟨length_ungroup g k, fun j => getElem?_ungroup k g, group_ungroup k ((le_lowmask_iff k g).1 hg)⟩⟩

/-- Settles O20: each law bit by bit from `getLsbD_ins`; the bound and the laws across widths from the number above and below
`2 ^ k`. -/
theorem insertAndExtractLaws : Obligations.InsertAndExtractLaws := by
  refine ⟨fun k x g hg => ?_, fun k x y => ext_congr k, fun x g => ext_k2_ins_k1 x, fun x g => ext_k1_ins_k2 x⟩
  rw [le_lowmask_iff] at hg
  exact ⟨fun i _ => getLsbD_ins x g k hg i, ext_ins x g k hg, ins_and_mask x hg,
    fun h hh => ins_ins x hg ((le_lowmask_iff k h).1 hh), ins_ext_self x k, toNat_ins_bounds x hg⟩

/-- A later carrier stands at a greater sample index (R70). -/
theorem carrierAddr_strictMono {nch : Nat} (hn : 3 ≤ nch) {q q' : Nat} (h : q < q') :
    carrierAddr nch q < carrierAddr nch q' := by
  show q / 3 * nch + q % 3 < q' / 3 * nch + q' % 3
  rcases Nat.eq_or_lt_of_le (Nat.div_le_div_right (c := 3) h.le) with hp | hp
  · rw [hp]
    omega
  · have hrow : (q / 3 + 1) * nch ≤ q' / 3 * nch := Nat.mul_le_mul_right _ hp
    have hc : q % 3 < 3 := Nat.mod_lt _ (by norm_num)
    rw [Nat.add_mul] at hrow
    omega

/-- Settles O21: division by 3 with its remainder; a later pixel starts past the carriers of an earlier one. -/
theorem carrierNumbering : Obligations.CarrierNumbering := by
  refine ⟨fun p c hc => ?_, fun q => ⟨Nat.div_add_mod q 3, Nat.mod_lt _ (by norm_num)⟩, fun _ _ => rfl,
    fun nch q q' hn => carrierAddr_strictMono hn, fun q => Nat.div_add_mod' q 3⟩
  simp only [carrierPixel, carrierChannel, carrier, Config.ncarry]
  omega

end Sys2Proof.Machine
end

section
/-! PROOFS of what `EMBED` writes (spec/44_embed.md R75 to R79; spec/43_channel_mux.md R72): the closed form of the output sample by
sample, what it keeps of the image, where each frame bit stands, and embedding twice. -/

namespace Sys2Proof.Machine

/-! ## One output sample -/

section
variable (F : Bits) (k : LsbWidth) (p c : Nat) (x : Sample)

/-- The channels beyond the third are copied (R79 a). -/
theorem pixelOut_of_three_le (hc : 3 ≤ c) : pixelOut F k p c x = x := if_neg (Nat.not_lt.2 hc)

/-- An output sample in the closed form of R78, for a frame of whole groups. -/
theorem pixelOut_eq (hF : k.bits ∣ F.length) : pixelOut F k p c x =
    if c ≤ 2 ∧ 3 * p + c < F.length / k.bits then ins x (group F ((3 * p + c) * k.bits) k) k else x := by
  rw [pixelOut, carrierOut, ← ite_and]
  refine if_congr (and_congr Nat.lt_succ_iff ?_) rfl rfl
  rw [Nat.lt_div_iff_mul_lt_of_dvd k.bits_pos.ne' hF]

/-- Bits 7 down to k of every output sample are the input's (R79 c). -/
theorem getLsbD_pixelOut_high {i : Nat} (hi : k.bits ≤ i) : (pixelOut F k p c x).getLsbD i = x.getLsbD i := by
  unfold pixelOut carrierOut
  split_ifs
  · rw [getLsbD_ins _ _ _ (group_lt ..), if_neg (Nat.not_lt.2 hi)]
  · rfl
  · rfl

/-- Writing the frame's group into a sample that holds it changes nothing (spec/42_lsb_distributor.md R66 c). -/
theorem pixelOut_pixelOut : pixelOut F k p c (pixelOut F k p c x) = pixelOut F k p c x := by
  unfold pixelOut carrierOut
  split_ifs
  · exact ins_ins x (group_lt ..) (group_lt ..)
  · rfl
  · rfl

end

/-! ## The state a completed `EMBED` leaves -/

/-- The state a completed `EMBED` leaves: the walk's output in `XOUT`, and the two figures (R75). -/
def State.embedded (s : State) (k : LsbWidth) (nch : Nat) : State :=
  (s.setBytes .xout (embedWalk k nch (frame s.payload) (s.readByte .xin) s.npix.toNat s.xout).out).report .ok 0 0
    s.required (s.available k)

/-- `EMBED` completes `OK` only with a legal `NCH` and a frame that fits. -/
theorem exec_embed_ok {k : LsbWidth} {nch : BitVec 3} {s t : State} (h : exec (.embed k nch) s = .next t)
    (hok : t.status = Status.ok.word) :
    nchLegal nch = true ∧ s.required ≤ s.available k ∧ t = s.embedded k nch.toNat := by
  by_cases hn : nchLegal nch = true
  · have hfit := (exec_embed_ok_iff hn).1 ⟨t, h, hok⟩
    rw [exec_embed_of_fits hn hfit] at h
    cases h
    exact ⟨hn, hfit, rfl⟩
  · rw [exec_embed, embedOn, if_neg hn] at h
    cases h
    exact absurd hok (Status.word_raised_ne_ok _)

/-- The sample at pixel `p`, channel `c` is one of the image's (spec/43_channel_mux.md R69). -/
theorem sampleIndex_lt {npix nch p c : Nat} (hp : p < npix) (hc : c < nch) : p * nch + c < npix * nch := by
  have hrow : (p + 1) * nch ≤ npix * nch := Nat.mul_le_mul_right _ hp
  rw [Nat.add_mul] at hrow
  omega

section
variable (s : State) (k : LsbWidth) {nch : Nat} (hn : 3 ≤ nch)
include hn

/-- `XOUT` inside the image, by index. -/
theorem State.readByte_embedded_of_lt {a : Nat} (ha : a < s.npix.toNat * nch) : (s.embedded k nch).readByte .xout a =
    pixelOut (frame s.payload) k (a / nch) (a % nch) (s.readByte .xin a) := by
  rw [State.embedded, State.report_readByte, readByte_embedded s k hn, if_pos ha]

/-- `XOUT` inside the image, by pixel and channel. -/
theorem State.readByte_embedded_sample {p c : Nat} (hp : p < s.npix.toNat) (hc : c < nch) :
    (s.embedded k nch).readByte .xout (p * nch + c) =
      pixelOut (frame s.payload) k p c (s.readByte .xin (p * nch + c)) := by
  have hd : (p * nch + c) / nch = p := by
    rw [Nat.mul_comm, Nat.mul_add_div (by omega), Nat.div_eq_of_lt hc, Nat.add_zero]
  have hm : (p * nch + c) % nch = c := by
    rw [Nat.mul_comm, Nat.mul_add_mod, Nat.mod_eq_of_lt hc]
  rw [s.readByte_embedded_of_lt k hn (sampleIndex_lt hp hc), hd, hm]

/-- `XOUT` beyond the image is kept. -/
theorem State.readByte_embedded_above {a : Nat} (ha : s.npix.toNat * nch ≤ a) :
    (s.embedded k nch).readByte .xout a = s.readByte .xout a := by
  rw [State.embedded, State.report_readByte, readByte_embedded s k hn, if_neg (Nat.not_lt.2 ha)]

end

/-- The figures of a completed `EMBED` fit their registers (spec/10_state.md R18). -/
theorem State.embedded_reports (s : State) (k : LsbWidth) (nch : Nat) :
    (s.embedded k nch).reports .ok 0 0 s.required (s.available k) := by
  have hreq := required_lt s
  have havail := available_lt s k
  exact State.report_reports _ _ _ _ _ _ (by norm_num) (by norm_num) (by omega) (by omega)

/-- An `EMBED` or `EXTRACT` with fewer than three channels has no legal `NCH` (spec/30_encoding.md R41). -/
theorem not_nchLegal {nch : BitVec 3} (h : nch.toNat < 3) : ¬ nchLegal nch = true :=
  fun hn => Nat.not_le.2 h (three_le_of_legal hn)

/-! ## The obligations -/

/-- Settles O23: the closed form of every output sample, and the frame of a write to `XOUT`. -/
theorem embedWritesTheFrame : Obligations.EmbedWritesTheFrame := by
  intro k nch s hn hfit
  have h3 := three_le_of_legal hn
  have h : exec (.embed k nch) s = .next (s.embedded k nch.toNat) := exec_embed_of_fits hn hfit
  obtain ⟨hin, hside⟩ := commandOn_keeps ((exec_eq _ _).symm.trans h)
  refine ⟨_, h, s.embedded_reports k _, fun p hp c hc => ?_, fun a => s.readByte_embedded_above k h3, hside, hin,
    fun a => ?_, fun a => ?_⟩
  · rw [s.readByte_embedded_sample k h3 hp hc, pixelOut_eq _ _ _ _ _ (bits_dvd_frame s k), length_frame_payload]
    rfl
  · simp [State.embedded]
  · simp [State.embedded]

/-- Settles O25: alpha samples and later carriers are copied, and an insertion keeps the high bits. -/
theorem embedPreservesTheImage : Obligations.EmbedPreservesTheImage := by
  intro k nch s t h hok p hp c hc
  obtain ⟨hn, -, rfl⟩ := exec_embed_ok h hok
  rw [s.readByte_embedded_sample k (three_le_of_legal hn) hp hc]
  refine ⟨pixelOut_of_three_le _ k p c _, fun hq => ?_, fun i => getLsbD_pixelOut_high _ k p c _⟩
  rw [pixelOut_eq _ _ _ _ _ (bits_dvd_frame s k), length_frame_payload, if_neg]
  exact fun ⟨_, hlt⟩ => absurd hlt (Nat.not_lt.2 hq)

/-- Settles O26: carrier `i / k` holds the group of frame bit `i`, whose place in the group is its place in the sample. -/
theorem everyFrameBitStandsInItsCarrier : Obligations.EveryFrameBitStandsInItsCarrier := by
  intro k nch s t h hok i hi
  obtain ⟨hn, hfit, rfl⟩ := exec_embed_ok h hok
  have h3 := three_le_of_legal hn
  have hi' : i < (frame s.payload).length := (length_frame_payload s).symm ▸ hi
  have hq := carrierAddr_lt h3 (streamCarrier_lt (lt_of_lt_of_le hi hfit))
  have hbit := getLsbD_carrierOut (frame s.payload) k (s.readByte .xin (carrierAddr nch.toNat (streamCarrier k i)))
    (streamCarrier_group_le (bits_dvd_frame s k) hi') (Nat.mod_lt i k.bits_pos)
  rw [← readByte_embedded_carrier s k h3 hq] at hbit
  rw [List.getElem?_eq_getElem hi']
  refine congrArg some (Eq.trans ?_ hbit.symm)
  simp only [streamCarrier, Nat.div_add_mod']

/-- Settles O27: before each carrier the cursor stands at the carrier's place in the stream or at the frame's end. -/
theorem walkConsumesTheWholeFrame : Obligations.WalkConsumesTheWholeFrame := by
  intro k nch s hn (hfit : s.required ≤ s.available k)
  obtain ⟨hcur, -⟩ :=
    embedWalk_spec _ k (bits_dvd_frame s k) (three_le_of_legal hn) (s.readByte .xin) s.npix.toNat s.xout
  rw [hcur, cursorAt, length_frame_payload]
  rw [State.available_eq, Nat.mul_comm s.npix.toNat] at hfit
  exact Nat.min_eq_left hfit

/-- Settles O28: the same frame fits the same image, and is written where it already stands. -/
theorem embeddingAgainChangesNothing : Obligations.EmbeddingAgainChangesNothing := by
  intro k nch s t h hok u hplen hnpix hpin hxin
  obtain ⟨hn, hfit, rfl⟩ := exec_embed_ok h hok
  have h3 := three_le_of_legal hn
  have hfit' : u.required ≤ u.available k := by rwa [State.required_eq, State.available_eq, hplen, hnpix]
  refine ⟨u.embedded k nch.toNat, exec_embed_of_fits hn hfit', rfl, fun a ha => ?_⟩
  rw [u.readByte_embedded_of_lt k h3 (hnpix ▸ ha), hxin a ha, s.readByte_embedded_of_lt k h3 ha,
    State.payload_congr hplen hpin, pixelOut_pixelOut]

/-- Settles O29: both commands check `NCH` before anything else. -/
theorem illegalChannelCountIsParamError : Obligations.IllegalChannelCountIsParamError := by
  intro k nch s h
  rw [exec_embed, exec_extract, embedOn, extractOn, if_neg (not_nchLegal h), if_neg (not_nchLegal h)]
  have hraise := takesException_raise s (.param .badNch) (req := 0) (avail := 0) (by norm_num) (by norm_num)
  exact ⟨hraise, hraise⟩

end Sys2Proof.Machine
end

section
/-! PROOFS of what `EXTRACT` depends on (spec/70_reset_and_hazards.md section 3, 45_extract.md R85): the low bits of the frame's
carriers, and an image whose header bits are zero. -/

namespace Sys2Proof.Machine

/-- Streams that agree below `n` have the same slices there. -/
theorem slice_congr {A B : Bits} {n : Nat} (h : ∀ i < n, A[i]? = B[i]?) (i : Nat) {j : Nat} (hj : j ≤ n) :
    slice A i j = slice B i j := by
  apply List.ext_getElem?
  intro m
  simp only [slice, List.getElem?_take, List.getElem?_drop]
  split_ifs with hm
  · exact h _ (by omega)
  · rfl

/-- What `EXTRACT` with a legal channel count can do on whole buffers: raise with both figures, or complete. -/
theorem extractOn_next {pf : Config.Platform} (hw : wholeBuffers pf) {k : LsbWidth} {nch : BitVec 3}
    (hn : nchLegal nch = true) {s t : State} (h : extractOn pf k nch s = .next t) :
    (∃ e, t = s.raise e (if s.available k < 32 then 32 else 32 + s.declared k nch.toNat) (s.available k)) ∨
    (32 ≤ s.available k ∧ t = s.extracted k nch.toNat ∧
      (pf.policy = .lenient ∨ 32 + s.declared k nch.toNat ≤ s.available k ∧ s.declared k nch.toNat % 8 = 0)) := by
  by_cases hshort : s.available k < 32
  · rw [extractOn_eq hw s k hn, extractFrom_short s _ (by simpa using hshort), length_collected] at h
    cases h
    exact .inl ⟨_, by rw [if_pos hshort]⟩
  have h32 := Nat.le_of_not_lt hshort
  rw [extractOn_of_header hn hw h32] at h
  rw [if_neg hshort]
  split_ifs at h with hbody hal
  · cases h
    exact .inl ⟨_, rfl⟩
  · cases h
    exact .inl ⟨_, rfl⟩
  · cases h
    refine .inr ⟨h32, rfl, ?_⟩
    cases hp : pf.policy with
    | lenient => exact .inl rfl
    | strict =>
      simp only [hp, true_and] at hbody hal
      exact .inr ⟨by omega, by omega⟩

/-- `EXTRACT` completes on this hardware only where the declared bits fit and are whole bytes (R85, R86). -/
theorem exec_extract_ok {k : LsbWidth} {nch : BitVec 3} {s t : State} (h : exec (.extract k nch) s = .next t)
    (hok : t.status = Status.ok.word) :
    nchLegal nch = true ∧ 32 + s.declared k nch.toNat ≤ s.available k ∧ s.declared k nch.toNat % 8 = 0 ∧
      t = s.extracted k nch.toNat := by
  rw [exec_extract] at h
  by_cases hn : nchLegal nch = true
  · rcases extractOn_next wholeBuffers_platform hn h with ⟨e, rfl⟩ | ⟨-, rfl, hp | ⟨hfit, hal⟩⟩
    · exact absurd hok (Status.word_raised_ne_ok e)
    · exact nomatch hp
    · exact ⟨hn, hfit, hal, rfl⟩
  · rw [extractOn, if_neg hn] at h
    cases h
    exact absurd hok (Status.word_raised_ne_ok _)

/-- Stream bits stand in low bits (spec/43_channel_mux.md R72). -/
theorem streamSampleBit_lt (k : LsbWidth) (i : Nat) : streamSampleBit k i < k.bits := by
  have hk := k.bits_pos
  unfold streamSampleBit
  omega

/-- The first `n` bits collected are those of the low bits of the carriers numbered below `n / k`, rounded up. -/
theorem getElem?_collected_congr {s u : State} {k : LsbWidth} {nch n : Nat} (hx : u.npix = s.npix)
    (hfit : n ≤ s.available k) (h : ∀ q, q * k.bits < n → ∀ i < k.bits,
      (u.readByte .xin (carrierAddr nch q)).getLsbD i = (s.readByte .xin (carrierAddr nch q)).getLsbD i) :
    ∀ i < n, (u.collected k nch)[i]? = (s.collected k nch)[i]? := by
  intro i hi
  have hu : u.available k = s.available k := by rw [State.available_eq, hx, State.available_eq]
  have hq : streamCarrier k i * k.bits < n := lt_of_le_of_lt (Nat.div_mul_le_self i k.bits) hi
  rw [getElem?_collected u k nch i (by omega), getElem?_collected s k nch i (by omega), h _ hq _ (streamSampleBit_lt k i)]

/-- A zero header declares no payload. -/
theorem State.declared_eq_zero {s : State} {k : LsbWidth} {nch : Nat} (h32 : 32 ≤ s.available k)
    (h : ∀ q, q * k.bits < 32 → ∀ i < k.bits, (s.readByte .xin (carrierAddr nch q)).getLsbD i = false) :
    s.declared k nch = 0 := by
  have hzero : slice (s.collected k nch) 0 32 = List.replicate 32 false := by
    rw [List.eq_replicate_iff]
    refine ⟨by simp; omega, fun b hb => ?_⟩
    obtain ⟨i, hi, rfl⟩ := List.mem_iff_getElem.1 hb
    rw [length_slice] at hi
    have hq : streamCarrier k i * k.bits < 32 := lt_of_le_of_lt (Nat.div_mul_le_self i k.bits) (by omega)
    have hbit := getElem?_collected s k nch i (by omega)
    rw [h _ hq _ (streamSampleBit_lt k i)] at hbit
    obtain ⟨_, hbit⟩ := List.getElem?_eq_some_iff.1 hbit
    simpa only [getElem_slice, Nat.zero_add] using hbit
  rw [State.declared, hzero]
  rfl

/-! ## The obligations -/

/-- Settles O35: the two collected streams agree as far as the payload reaches, so they declare and deliver the same. -/
theorem extractDependsOnLowBitsOnly : Obligations.ExtractDependsOnLowBitsOnly := by
  intro k nch s t h hok u hx hlow
  obtain ⟨hn, hfit, hal, rfl⟩ := exec_extract_ok h hok
  obtain ⟨-, holen, -, hreq, -⟩ := s.extracted_reports k nch.toNat
  rw [hreq] at hlow
  have hS := getElem?_collected_congr hx hfit hlow
  have hu : u.available k = s.available k := by rw [State.available_eq, hx, State.available_eq]
  have hdeclared : u.declared k nch.toNat = s.declared k nch.toNat := congrArg dec32 (slice_congr hS 0 (by omega))
  have hdelivered : u.delivered k nch.toNat = s.delivered k nch.toNat := by
    rw [State.delivered, State.delivered, hdeclared, hu]
    exact slice_congr hS 32 (Nat.min_le_left _ _)
  refine ⟨u.extracted k nch.toNat, ?_, ?_, fun a ha => ?_⟩
  · rw [exec_extract]
    exact extractOn_eq_extracted hn wholeBuffers_platform (by omega) (.inr ⟨by omega, by omega⟩)
  · rw [State.extracted, State.extracted, hdeclared, hdelivered, hu]
    exact State.sameResults_report ..
  · have ha : a < (desGroups (s.delivered k nch.toNat)).length := by rwa [length_desGroups, ← holen]
    rw [State.readByte_extracted, State.readByte_extracted]
    simp only [hdelivered, ha, dif_pos]

/-- Settles O36: a zero header declares no bits, so nothing is delivered and nothing written. -/
theorem allBlackImageIsAnEmptyPayload : Obligations.AllBlackImageIsAnEmptyPayload := by
  intro k nch s hn (h32 : 32 ≤ s.available k) hzero
  have hL := State.declared_eq_zero h32 hzero
  have hlen : (s.delivered k nch.toNat).length / 8 = 0 := by
    rw [State.length_delivered, hL]
    omega
  obtain ⟨hrep, -, hpout, hside, hin, hbout, hxout⟩ := s.extracted_spec k nch.toNat hlen
  rw [hL] at hrep
  refine ⟨s.extracted k nch.toNat, ?_, hrep, hside, hin, fun a => hpout a (Nat.zero_le a), hbout, hxout⟩
  rw [exec_extract]
  exact extractOn_eq_extracted hn wholeBuffers_platform h32 (.inr ⟨by omega, by omega⟩)

end Sys2Proof.Machine
end

section
/-! PROOFS of what every command writes (spec/10_state.md R21) and of issuing a command again (spec/20_memory.md section 4). -/

namespace Sys2Proof.Machine

/-! ## Only the named range is written -/

/-- A sequence written to one byte buffer is seen in its own range only. -/
theorem State.readByte_writeBytes_outside (s : State) {b c : ByteBuf} {vs : List Byte} {a : Nat}
    (h : c = b → vs.length ≤ a) : (s.writeBytes b vs).readByte c a = s.readByte c a := by
  by_cases hc : c = b
  · subst hc
    rw [State.readByte_writeBytes, dif_neg (Nat.not_lt.2 (h rfl))]
  · exact s.readByte_writeBytes_other vs a hc

theorem State.readBit_writeBits_outside (s : State) {b c : BitBuf} {vs : Bits} {a : Nat}
    (h : c = b → vs.length ≤ a) : (s.writeBits b vs).readBit c a = s.readBit c a := by
  by_cases hc : c = b
  · subst hc
    rw [State.readBit_writeBits, dif_neg (Nat.not_lt.2 (h rfl))]
  · exact s.readBit_setBits_other _ a hc

/-- A command that writes `POUT` names `POUT[0..OLEN)`. -/
theorem byteWriteRange_pout {i : Instr} (h : i = .bitsToBytes ∨ ∃ k nch, i = .extract k nch) (s t : State) :
    byteWriteRange i s t .pout = t.olen.toNat := by
  rcases h with rfl | ⟨k, nch, rfl⟩
  · rfl
  · rw [byteWriteRange_extract, if_pos rfl]

/-- Settles O40: each outcome of `commandOn_next` is one write, of the range the command names, or an exception, which writes
nothing. -/
theorem outputsAreWrittenOnlyInRange : Obligations.OutputsAreWrittenOnlyInRange := by
  intro i s t h
  rw [exec_eq] at h
  rcases commandOn_next h with ⟨e, req, avail, rfl⟩ | ⟨rfl, rfl⟩ | ⟨D, req, avail, hi, hD, -, rfl⟩ | ⟨k, nch, rfl, hn, rfl⟩
  · exact ⟨fun _ _ _ => rfl, fun _ _ _ => rfl, fun _ => ⟨fun _ => rfl, fun _ => rfl, fun _ => rfl⟩⟩
  · refine ⟨fun b a _ => by simp, fun b a ha => ?_, fun hne => absurd rfl hne⟩
    rw [State.report_readBit]
    refine s.readBit_writeBits_outside fun hb => ?_
    subst hb
    simpa using ha
  · refine ⟨fun b a ha => ?_, fun b a _ => by simp, fun hne => absurd rfl hne⟩
    rw [State.report_readByte]
    refine s.readByte_writeBytes_outside fun hb => ?_
    subst hb
    rwa [byteWriteRange_pout hi, State.report_olen, BitVec.toNat_ofNat, Nat.mod_eq_of_lt hD] at ha
  · refine ⟨fun b a ha => ?_, fun b a _ => by simp, fun hne => absurd rfl hne⟩
    by_cases hb : b = .xout
    · subst hb
      rw [byteWriteRange_embed, if_pos rfl] at ha
      exact s.readByte_embedded_above k (three_le_of_legal hn) ha
    · rw [State.report_readByte, State.readByte_setBytes_other _ _ _ hb]

/-! ## A command issued again -/

/-- The same sequence written twice into a canonical buffer is written once. -/
theorem Memory.writeSeq_writeSeq {α : Type} {n : Nat} {m : Memory α} (h : Memory.wf n m) {vs : List α} (hvs : vs.length ≤ n) :
    (m.writeSeq 0 vs).writeSeq 0 vs = m.writeSeq 0 vs := by
  have h1 : Memory.wf n (m.writeSeq 0 vs) := Memory.wf_writeSeq h vs (by omega)
  have h2 : Memory.wf n ((m.writeSeq 0 vs).writeSeq 0 vs) := Memory.wf_writeSeq h1 vs (by omega)
  refine Memory.ext_of_sorted h2.1 h1.1 fun a => ?_
  simp only [Memory.get?_writeSeq]
  split_ifs <;> rfl

theorem State.setBytes_setBytes (s : State) (b : ByteBuf) (m m' : Memory Byte) :
    (s.setBytes b m).setBytes b m' = s.setBytes b m' := by cases b <;> rfl

theorem State.setBits_setBits (s : State) (b : BitBuf) (m m' : Memory Bit) :
    (s.setBits b m).setBits b m' = s.setBits b m' := by cases b <;> rfl

theorem State.setBytes_report (s : State) (st : Status) (olen oblen req avail : Nat) (b : ByteBuf) (m : Memory Byte) :
    (s.report st olen oblen req avail).setBytes b m = (s.setBytes b m).report st olen oblen req avail := by cases b <;> rfl

theorem State.setBits_report (s : State) (st : Status) (olen oblen req avail : Nat) (b : BitBuf) (m : Memory Bit) :
    (s.report st olen oblen req avail).setBits b m = (s.setBits b m).report st olen oblen req avail := by cases b <;> rfl

/-- Writing the same bytes and reporting the same figures again changes nothing. -/
theorem State.writeBytes_report_again {s : State} (hs : s.buffersWf) {b : ByteBuf} {vs : List Byte} (hvs : vs.length ≤ b.size)
    (st : Status) (olen oblen req avail : Nat) :
    (((s.writeBytes b vs).report st olen oblen req avail).writeBytes b vs).report st olen oblen req avail =
      (s.writeBytes b vs).report st olen oblen req avail := by
  have hB := (s.buffersWf_iff.1 hs).1 b
  simp only [State.writeBytes, State.setBytes_report, State.setBytes_setBytes, State.report_bytes, State.bytes_setBytes_same,
    Memory.writeSeq_writeSeq hB hvs]
  rfl

theorem State.writeBits_report_again {s : State} (hs : s.buffersWf) {b : BitBuf} {vs : Bits} (hvs : vs.length ≤ b.size)
    (st : Status) (olen oblen req avail : Nat) :
    (((s.writeBits b vs).report st olen oblen req avail).writeBits b vs).report st olen oblen req avail =
      (s.writeBits b vs).report st olen oblen req avail := by
  have hb := (s.buffersWf_iff.1 hs).2 b
  simp only [State.writeBits, State.setBits_report, State.setBits_setBits, State.report_bitsOf, State.bitsOf_setBits_same,
    Memory.writeSeq_writeSeq hb hvs]
  rfl

/-- The walk over its own output writes what stands there. -/
theorem embedWalk_again {F : Bits} {k : LsbWidth} (hF : k.bits ∣ F.length) {nch : Nat} (hn : 3 ≤ nch) (x : Nat → Sample) {n N : Nat}
    (hN : n * nch ≤ N) {m : Memory Sample} (h : Memory.wf N m) :
    (embedWalk k nch F x n (embedWalk k nch F x n m).out).out = (embedWalk k nch F x n m).out := by
  have h1 := embedWalk_wf F k hF hn x n hN h
  have h2 := embedWalk_wf F k hF hn x n hN h1
  refine Memory.ext_of_sorted h2.1 h1.1 fun a => ?_
  rw [(embedWalk_spec F k hF hn x n _).2 a, (embedWalk_spec F k hF hn x n m).2 a]
  split_ifs <;> rfl

section
variable {s t : State}

theorem State.payload_of_kept (hside : s.hostSideKept t) (hin : s.inputsKept t) : t.payload = s.payload := by
  obtain ⟨-, hplen, -⟩ := hside
  obtain ⟨hpin, -⟩ := hin
  exact State.payload_congr hplen fun a _ => hpin a

theorem State.bitstream_of_kept (hside : s.hostSideKept t) (hin : s.inputsKept t) : t.bitstream = s.bitstream := by
  obtain ⟨-, -, hblen, -⟩ := hside
  obtain ⟨-, hbin, -⟩ := hin
  exact State.bitstream_congr hblen fun a _ => hbin a

theorem State.collected_of_kept (hside : s.hostSideKept t) (hin : s.inputsKept t) (k : LsbWidth) (nch : Nat) :
    t.collected k nch = s.collected k nch := by
  obtain ⟨-, -, -, hnpix, -⟩ := hside
  obtain ⟨-, -, hxin⟩ := hin
  exact State.collected_congr k hnpix fun p _ c _ => hxin _

variable {pf : Config.Platform} (hw : wholeBuffers pf) (hs : s.buffersWf)
include hw hs

theorem bytesToBitsOn_again (h : bytesToBitsOn pf s = .next t) : bytesToBitsOn pf t = .next t := by
  obtain ⟨hin, hside⟩ := commandOn_keeps (i := .bytesToBits) h
  have hpayload := State.payload_of_kept hside hin
  obtain ⟨-, hplen, -⟩ := hside
  rw [bytesToBitsOn_eq hw s] at h
  rw [bytesToBitsOn_eq hw t, hpayload, hplen]
  cases h
  rw [State.writeBits_report_again hs (by simpa using boutRange_le s)]

theorem bitsToBytesOn_again (h : bitsToBytesOn pf s = .next t) : bitsToBytesOn pf t = .next t := by
  obtain ⟨hin, hside⟩ := commandOn_keeps (i := .bitsToBytes) h
  have hstream := State.bitstream_of_kept hside hin
  obtain ⟨-, -, hblen, -⟩ := hside
  rw [bitsToBytesOn_eq hw s] at h
  rw [bitsToBytesOn_eq hw t, hstream, hblen]
  split_ifs at h ⊢
  · cases h
    rfl
  · cases h
    rw [State.writeBytes_report_again hs (by simpa using poutRange_le s)]

variable {k : LsbWidth} {nch : BitVec 3}

theorem embedOn_again (h : embedOn pf k nch s = .next t) : embedOn pf k nch t = .next t := by
  by_cases hn : nchLegal nch = true
  · obtain ⟨hin, hside⟩ := commandOn_keeps ((commandOn_embed pf k nch s).trans h)
    have hpayload := State.payload_of_kept hside hin
    obtain ⟨-, hplen, -, hnpix, -⟩ := hside
    obtain ⟨-, -, hxin⟩ := hin
    have hxin : t.readByte .xin = s.readByte .xin := funext hxin
    rw [embedOn_eq hw s k hn] at h
    rw [embedOn_eq hw t k hn, hpayload, hxin, State.required_eq, State.available_eq, hplen, hnpix, ← State.required_eq,
      ← State.available_eq]
    split_ifs at h ⊢
    · cases h
      rfl
    · cases h
      have hxout : Memory.wf (ByteBuf.size .xout) s.xout := (s.buffersWf_iff.1 hs).1 .xout
      rw [State.setBytes_report, State.setBytes_setBytes]
      exact congrArg (fun m => Host.Outcome.next (State.report (s.setBytes .xout m) ..))
        (embedWalk_again (bits_dvd_frame s k) (three_le_of_legal hn) _ (xinRange_le s nch) hxout)
  · rw [embedOn, if_neg hn] at h ⊢
    cases h
    rfl

theorem extractOn_again (h : extractOn pf k nch s = .next t) : extractOn pf k nch t = .next t := by
  by_cases hn : nchLegal nch = true
  · obtain ⟨hin, hside⟩ := commandOn_keeps ((commandOn_extract pf k nch s).trans h)
    have hS := State.collected_of_kept hside hin k nch.toNat
    rw [extractOn_eq hw s k hn] at h
    rw [extractOn_eq hw t k hn, hS]
    have hT := available_lt s k
    have hL := dec32_lt (s.collected k nch.toNat)
    rw [← length_collected s k nch.toNat] at hT
    generalize s.collected k nch.toNat = S at *
    by_cases hshort : S.length < 32
    · rw [extractFrom_short _ S hshort] at h ⊢
      cases h
      rfl
    · rw [extractFrom_eq hw _ S (Nat.le_of_not_lt hshort) hT] at h ⊢
      split_ifs at h ⊢
      · cases h
        rfl
      · cases h
        rfl
      · cases h
        rw [State.writeBytes_report_again hs]
        simp only [length_desGroups, length_slice, ByteBuf.size]
        omega
  · rw [extractOn, if_neg hn] at h ⊢
    cases h
    rfl

end

/-- Settles O42: a command keeps what it reads, so the second time it writes and reports the same, over what stands there. -/
theorem repeatedCommandLeavesTheSameState : Obligations.RepeatedCommandLeavesTheSameState := by
  intro i s t hs h
  have hw := wholeBuffers_platform
  rw [exec_eq] at h ⊢
  rcases Instr_cases i with rfl | rfl | ⟨k, nch, rfl⟩ | ⟨k, nch, rfl⟩
  · exact bytesToBitsOn_again hw hs h
  · exact bitsToBytesOn_again hw hs h
  · rw [commandOn_embed] at h ⊢
    exact embedOn_again hw hs h
  · rw [commandOn_extract] at h ⊢
    exact extractOn_again hw hs h

end Sys2Proof.Machine
end

section
/-! PROOFS of the figures (spec/10_state.md R18) and of the implemented buffers' limits (spec/70_reset_and_hazards.md section 3, R114):
every command is a chain of limit checks around one next state, the same on every platform of its policy. -/

namespace Sys2Proof.Machine

/-! ## The limit checks -/

section
variable {pf : Config.Platform} {n : Nat} {o : Host.Outcome State Fault Refusal}

theorem withinBytes_next_iff {b : ByteBuf} :
    (∃ t, withinBytes pf b n o = .next t) ↔ n ≤ pf.byteLimit b ∧ ∃ t, o = .next t := by
  by_cases h : n ≤ pf.byteLimit b
  · simp [withinBytes_of_le h, h]
  · simp [withinBytes_of_gt o h, h]

theorem withinBits_next_iff {b : BitBuf} :
    (∃ t, withinBits pf b n o = .next t) ↔ n ≤ pf.bitLimit b ∧ ∃ t, o = .next t := by
  by_cases h : n ≤ pf.bitLimit b
  · simp [withinBits_of_le h, h]
  · simp [withinBits_of_gt o h, h]

theorem withinBytes_refused_iff {b : ByteBuf} :
    (∃ r, withinBytes pf b n o = .refused r) ↔ (n ≤ pf.byteLimit b → ∃ r, o = .refused r) := by
  by_cases h : n ≤ pf.byteLimit b
  · simp [withinBytes_of_le h, h]
  · simp [withinBytes_of_gt o h, h]

theorem withinBits_refused_iff {b : BitBuf} :
    (∃ r, withinBits pf b n o = .refused r) ↔ (n ≤ pf.bitLimit b → ∃ r, o = .refused r) := by
  by_cases h : n ≤ pf.bitLimit b
  · simp [withinBits_of_le h, h]
  · simp [withinBits_of_gt o h, h]

end

/-- Nothing written to `POUT` is within every limit. -/
theorem withinPout_of_olen_eq_zero (pf : Config.Platform) {t : State} (h : t.olen = 0) :
    withinBytes pf .pout t.olen.toNat (.next t) = .next t := by
  rw [h]
  exact withinBytes_of_le (Nat.zero_le _)

/-! ## Every command as its limit checks around one next state -/

/-- What `BITS_TO_BYTES` does under a policy, behind its two checks. -/
theorem bitsToBytesOn_form (p : FormatPolicy) (s : State) : ∃ t : State, t.olen.toNat ≤ s.blen.toNat / 8 ∧
    ∀ pf, pf.policy = p → bitsToBytesOn pf s =
      withinBits pf .bin s.blen.toNat (withinBytes pf .pout (s.blen.toNat / 8) (.next t)) := by
  rcases des_cases p s.bitstream with ⟨hd, -⟩ | ⟨hd, -⟩
  · refine ⟨_, ?_, fun pf hp => by rw [bitsToBytesOn, hp, hd]⟩
    simpa using Nat.mod_le ..
  · exact ⟨_, Nat.zero_le _, fun pf hp => by rw [bitsToBytesOn, hp, hd]⟩

/-- What `EMBED` does, behind its three checks. -/
theorem embedOn_form {k : LsbWidth} {nch : BitVec 3} (hn : nchLegal nch = true) (s : State) : ∃ t : State, t.olen = 0 ∧
    ∀ pf, embedOn pf k nch s = withinBytes pf .pin s.plen.toNat (withinBytes pf .xin (s.npix.toNat * nch.toNat)
      (withinBytes pf .xout (s.npix.toNat * nch.toNat) (.next t))) := by
  by_cases hc : s.required > s.available k
  · exact ⟨_, rfl, fun pf => by rw [embedOn, if_pos hn, if_pos hc]⟩
  · exact ⟨_, rfl, fun pf => by rw [embedOn, if_pos hn, if_neg hc]⟩

/-- A payload has at most the bits declared (spec/45_extract.md R85, R87). -/
theorem length_payloadBits_le {p : FormatPolicy} {S : Bits} {L : Nat} {B : Bits} (h : payloadBits p S L = .ok B) :
    B.length ≤ L := by
  cases p with
  | strict =>
    simp only [payloadBits] at h
    split_ifs at h
    cases h
    simp
  | lenient =>
    cases h
    simp
    omega

/-- What `EXTRACT` does with a stream under a policy, behind its check of `POUT`; an exception writes nothing, which is within any
limit. -/
theorem extractFrom_form (p : FormatPolicy) (S : Bits) (s : State) : ∃ t : State, ∀ pf, pf.policy = p →
    extractFrom pf S s = withinBytes pf .pout t.olen.toNat (.next t) := by
  by_cases hshort : S.length < 32
  · exact ⟨_, fun pf _ => (extractFrom_short s S hshort).trans (withinPout_of_olen_eq_zero pf rfl).symm⟩
  · cases hB : payloadBits p S (dec32 (slice S 0 Config.hdrW)) with
    | error c =>
      refine ⟨s.raise (.format c) (Config.hdrW + dec32 (slice S 0 Config.hdrW)) S.length, fun pf hp => ?_⟩
      rw [extractFrom, if_neg hshort, withinPout_of_olen_eq_zero pf rfl]
      simp only [hp, hB]
    | ok B =>
      have hlen := length_payloadBits_le hB
      have hL := dec32_lt S
      refine ⟨(s.writeBytes .pout (desGroups B)).report .ok (B.length / 8) 0 (Config.hdrW + dec32 (slice S 0 Config.hdrW))
        S.length, fun pf hp => ?_⟩
      have hfit : B.length / 8 < 2 ^ 29 := by simp only [Config.hdrW] at hlen; omega
      rw [extractFrom, if_neg hshort, State.report_olen, BitVec.toNat_ofNat, Nat.mod_eq_of_lt hfit]
      simp only [hp, hB]

/-- What `EXTRACT` does under a policy, behind its checks of `XIN` and `POUT`. -/
theorem extractOn_form {k : LsbWidth} {nch : BitVec 3} (hn : nchLegal nch = true) (p : FormatPolicy) (s : State) :
    ∃ t : State, ∀ pf, pf.policy = p → extractOn pf k nch s =
      withinBytes pf .xin (carrierReach nch.toNat s.npix.toNat) (withinBytes pf .pout t.olen.toNat (.next t)) := by
  obtain ⟨t, ht⟩ := extractFrom_form p (s.collected k nch.toNat) s
  exact ⟨t, fun pf hp => by rw [extractOn, if_pos hn, ht pf hp]⟩

/-! ## Commands at the limits -/

@[simp] theorem rangesFit_embed (pf : Config.Platform) (k : LsbWidth) (nch : BitVec 3) (s : State) :
    rangesFit pf (.embed k nch) s ↔ s.plen.toNat ≤ pf.byteLimit .pin ∧ s.npix.toNat * nch.toNat ≤ pf.byteLimit .xin ∧
      s.npix.toNat * nch.toNat ≤ pf.byteLimit .xout := by cases k <;> rfl

@[simp] theorem rangesFit_extract (pf : Config.Platform) (k : LsbWidth) (nch : BitVec 3) (s : State) :
    rangesFit pf (.extract k nch) s ↔ ∀ p < s.npix.toNat, ∀ c < 3, p * nch.toNat + c < pf.byteLimit .xin := by cases k <;> rfl

/-- An outcome is refused where the ranges do not fit, and otherwise is `t` behind the check of the bytes `t` reports in `POUT`. -/
def limitedTo (pf : Config.Platform) (fits : Prop) (t : State) (o : Host.Outcome State Fault Refusal) : Prop :=
  (fits → o = withinBytes pf .pout t.olen.toNat (.next t)) ∧ (¬ fits → ∃ r, o = .refused r)

/-- Every command that a word decodes to is limited, under each policy, to one next state. -/
theorem commandOn_limitedTo {w : Byte} {i : Instr} (hd : decode w = .ok i) (p : FormatPolicy) (s : State) :
    ∃ t, ∀ pf, pf.policy = p → limitedTo pf (rangesFit pf i s) t (commandOn pf i s) := by
  rcases Instr_cases i with rfl | rfl | ⟨k, nch, rfl⟩ | ⟨k, nch, rfl⟩
  · refine ⟨(s.writeBits .bout (ser s.payload)).report .ok 0 (8 * s.plen.toNat) 0 0, fun pf _ => ⟨fun ⟨hpin, hbout⟩ => ?_,
      fun hno => ?_⟩⟩
    · rw [withinPout_of_olen_eq_zero pf rfl]
      exact (withinBytes_of_le hpin).trans (withinBits_of_le hbout)
    · exact withinBytes_refused_iff.2 fun hpin => withinBits_refused_iff.2 fun hbout => absurd ⟨hpin, hbout⟩ hno
  · obtain ⟨t, hle, ht⟩ := bitsToBytesOn_form p s
    refine ⟨t, fun pf hp => ⟨fun ⟨hbin, hpout⟩ => ?_, fun hno => ?_⟩⟩
    · rw [withinBytes_of_le (hle.trans hpout)]
      exact (ht pf hp).trans ((withinBits_of_le hbin).trans (withinBytes_of_le hpout))
    · rw [show commandOn pf .bitsToBytes s = _ from ht pf hp]
      exact withinBits_refused_iff.2 fun hbin => withinBytes_refused_iff.2 fun hpout => absurd ⟨hbin, hpout⟩ hno
  · obtain ⟨t, holen, ht⟩ := embedOn_form (nchLegal_of_decode_embed hd) s
    refine ⟨t, fun pf _ => ?_⟩
    rw [rangesFit_embed, commandOn_embed, ht pf]
    refine ⟨fun ⟨hpin, hxin, hxout⟩ => ?_, fun hno => ?_⟩
    · rw [withinBytes_of_le hpin, withinBytes_of_le hxin, withinBytes_of_le hxout, withinPout_of_olen_eq_zero pf holen]
    · exact withinBytes_refused_iff.2 fun hpin => withinBytes_refused_iff.2 fun hxin => withinBytes_refused_iff.2 fun hxout =>
        absurd ⟨hpin, hxin, hxout⟩ hno
  · obtain ⟨t, ht⟩ := extractOn_form (nchLegal_of_decode_extract hd) p s
    refine ⟨t, fun pf hp => ?_⟩
    rw [rangesFit_extract, commandOn_extract, ht pf hp, ← carrierReach_le_iff]
    exact ⟨fun hxin => withinBytes_of_le hxin, fun hno => ⟨_, withinBytes_of_gt _ hno⟩⟩

/-- `POUT` as a whole holds whatever `OLEN` can count. -/
theorem olen_le (t : State) : t.olen.toNat ≤ ByteBuf.size .pout := by
  have := t.olen.isLt
  simp only [ByteBuf.size]; omega

/-- On whole buffers every range fits, so a limited outcome is its next state. -/
theorem rangesFit_platformWith {w : Byte} {i : Instr} (hd : decode w = .ok i) (p : FormatPolicy) (s : State) :
    rangesFit (Config.platformWith p) i s := by
  rcases Instr_cases i with rfl | rfl | ⟨k, nch, rfl⟩ | ⟨k, nch, rfl⟩
  · exact ⟨plen_le s, boutRange_le s⟩
  · exact ⟨blen_le s, poutRange_le s⟩
  · exact (rangesFit_embed ..).2 ⟨plen_le s, xinRange_le s nch, xinRange_le s nch⟩
  · exact (rangesFit_extract ..).2 ((carrierReach_le_iff ..).1
      ((carrierReach_le s nch (nchLegal_of_decode_extract hd)).trans (xinRange_le s nch)))

/-! ## The figures -/

section
variable {pf : Config.Platform} (hw : wholeBuffers pf) {s t : State}
include hw

theorem bytesToBitsOn_oblen (h : bytesToBitsOn pf s = .next t) : t.oblen.toNat = 8 * s.plen.toNat := by
  have hp := s.plen.isLt
  rw [bytesToBitsOn_eq hw] at h
  cases h
  rw [State.report_oblen, BitVec.toNat_ofNat, Nat.mod_eq_of_lt (by omega)]

theorem bitsToBytesOn_olen (h : bitsToBytesOn pf s = .next t) (hok : t.status = Status.ok.word) :
    t.olen.toNat = s.blen.toNat / 8 := by
  have hb := s.blen.isLt
  rw [bitsToBytesOn_eq hw] at h
  split_ifs at h
  · cases h
    exact absurd hok (Status.word_raised_ne_ok _)
  · cases h
    rw [State.report_olen, BitVec.toNat_ofNat, Nat.mod_eq_of_lt (by omega)]

variable {k : LsbWidth} {nch : BitVec 3} (hn : nchLegal nch = true)
include hn

theorem embedOn_figures (h : embedOn pf k nch s = .next t) : t.req.toNat = s.required ∧ t.avail.toNat = s.available k := by
  have hreq := required_lt s
  have havail := available_lt s k
  rw [embedOn_eq hw s k hn] at h
  split_ifs at h <;>
  · cases h
    exact ⟨Nat.mod_eq_of_lt (by omega), Nat.mod_eq_of_lt (by omega)⟩

theorem extractOn_figures (h : extractOn pf k nch s = .next t) :
    t.req.toNat = (if s.available k < 32 then 32 else 32 + s.declared k nch.toNat) ∧ t.avail.toNat = s.available k ∧
    (t.status = Status.ok.word → t.olen.toNat = (min (32 + s.declared k nch.toNat) (s.available k) - 32) / 8) := by
  have hL := s.declared_lt k nch.toNat
  have hT := available_lt s k
  rcases extractOn_next hw hn h with ⟨e, rfl⟩ | ⟨h32, rfl, -⟩
  · exact ⟨Nat.mod_eq_of_lt (by split_ifs <;> omega), Nat.mod_eq_of_lt (by omega),
      fun hok => absurd hok (Status.word_raised_ne_ok e)⟩
  · obtain ⟨-, holen, -, hreq, havail⟩ := s.extracted_reports k nch.toNat
    rw [State.length_delivered] at holen
    rw [if_neg (Nat.not_lt.2 h32)]
    exact ⟨hreq, havail, fun _ => holen⟩

end

/-! ## The obligations -/

/-- Settles O47: this hardware's platform is `STRICT` on whole buffers, arm by arm. -/
theorem execIsTheStrictCommand : Obligations.ExecIsTheStrictCommand := exec_eq

/-- Settles O46: the bounds are arithmetic on the operands' widths, and a figure below its register's range is held exactly. -/
theorem figuresFitTheirRegisters : Obligations.FiguresFitTheirRegisters := by
  intro p s
  have hw := wholeBuffers_platformWith p
  have hp := s.plen.isLt
  have hb := s.blen.isLt
  refine ⟨⟨by simp only [Reg.width]; omega, fun t => bytesToBitsOn_oblen hw⟩,
    ⟨by simp only [Reg.width]; omega, fun t => bitsToBytesOn_olen hw⟩, fun k nch hn => ?_⟩
  intro T L
  have hL : L < 2 ^ 32 := s.declared_lt k nch.toNat
  refine ⟨by omega, available_lt s k, by omega, by decide, by decide, by simp only [Reg.width]; omega, fun t h => ?_,
    fun t h => ?_⟩
  · rw [commandOn_embed] at h
    exact embedOn_figures hw hn h
  · rw [commandOn_extract] at h
    exact extractOn_figures hw hn h

/-- Settles O45: each command is its checks around a next state, so it runs exactly when the checks pass. -/
theorem commandsRunExactlyWithinTheLimits : Obligations.CommandsRunExactlyWithinTheLimits := by
  refine fun pf s => ⟨?_, ?_, fun k nch hn => ?_, fun k nch hn => ?_⟩
  · exact withinBytes_next_iff.trans (and_congr_right fun _ => withinBits_next_iff.trans (and_iff_left ⟨_, rfl⟩))
  · obtain ⟨t, -, ht⟩ := bitsToBytesOn_form pf.policy s
    rw [show commandOn pf .bitsToBytes s = _ from ht pf rfl]
    exact withinBits_next_iff.trans (and_congr_right fun _ => withinBytes_next_iff.trans (and_iff_left ⟨t, rfl⟩))
  · obtain ⟨t, -, ht⟩ := embedOn_form (k := k) hn s
    rw [commandOn_embed, ht pf]
    exact withinBytes_next_iff.trans (and_congr_right fun _ => withinBytes_next_iff.trans (and_congr_right fun _ =>
      withinBytes_next_iff.trans (and_iff_left ⟨t, rfl⟩)))
  · obtain ⟨t, ht⟩ := extractOn_form (k := k) hn pf.policy s
    rw [commandOn_extract, ht pf rfl, ← carrierReach_le_iff]
    refine ⟨fun u hu => ?_, fun hxin hpout => ⟨t, ?_⟩⟩
    · obtain ⟨hxin, hu⟩ := withinBytes_next hu
      obtain ⟨hpout, hu⟩ := withinBytes_next hu
      cases hu
      exact ⟨hxin, hpout⟩
    · rw [withinBytes_of_le hxin, withinBytes_of_le ((olen_le t).trans hpout)]

/-- Settles O59: the one next state a command is limited to is what it leaves on whole buffers; the write is the command, with the
word in `CMD`, which no range depends on. -/
theorem cmdWriteBeyondTheLimitsIsRefused : Obligations.CmdWriteBeyondTheLimitsIsRefused := by
  refine ⟨fun pf w i s hd => ?_, fun pf w c s hd => ?_, fun w s => by rw [hostAct_writeCmd, issueOn_platform]⟩
  · intro s' whole
    have hact : hostAct pf (.writeReg .cmd w) s = commandOn pf i s' := issueOn_of_ok hd s
    obtain ⟨t, ht⟩ := commandOn_limitedTo hd pf.policy s'
    obtain ⟨hfits, hrefused⟩ := ht pf rfl
    obtain ⟨hwhole, -⟩ := ht (Config.platformWith pf.policy) rfl
    have hranges : rangesFit pf i s' ↔ rangesFit pf i s := by cases i <;> rfl
    have hwhole : whole = .next t := (hwhole (rangesFit_platformWith hd _ s')).trans (withinBytes_of_le (olen_le t))
    rw [hranges] at hfits hrefused
    rw [hact, hwhole]
    refine ⟨rfl, hrefused, ?_, ?_⟩
    · rintro k nch _ - ⟨⟩ hlong
      by_cases hfit : rangesFit pf i s
      · exact ⟨_, (hfits hfit).trans (withinBytes_of_gt _ (Nat.not_le.2 hlong))⟩
      · exact hrefused hfit
    · rintro _ hfit ⟨⟩ hpout
      rw [hfits hfit, withinBytes_of_le hpout]
  · rw [hostAct_writeCmd, issueOn_of_error hd]
    exact takesException_raise _ _ (by norm_num) (by norm_num)

end Sys2Proof.Machine
end
